-- ==== Sys2Proof/Word.lean ====
section
/-! DEFINITION. The word types of the ElevatorEmulator sequencer core and its memory capacity
(spec/00_scope.md R4, R9, R10; spec/10_state.md R21; spec/20_memory.md R40). -/

namespace Sys2Proof

/-- One 16-bit instruction word, `WORD_W = 16` (R4). Bit 0 is the least significant bit (R9). -/
abbrev Word := BitVec 16

/-- An 8-bit value of the width of `PC` and of the `jump` field, `PC_W = JUMP_W = 8` (R4, R21). -/
abbrev Addr := BitVec 8

/-- One half of an instruction word as `Host.Cell` stores it. The core itself has no byte accesses
(R46); see notes/assumptions/6.md. -/
abbrev Half := BitVec 8

/-- `N`, the memory capacity: 255 words at addresses 0 to 254 (R4, R24, R40). -/
def memSize : Nat := 255

end Sys2Proof
end

