-- ==== Sys2Proof/Config.lean ====
section
/-! DEFINITION. What the build of the core fixes (spec/00_scope.md R2, R4) and the values the spec leaves
unspecified: each of those is an opaque constant, so nothing can be proved of its value. -/

namespace Sys2Proof

/-- `SEL_LAYOUT`, the word layout (R4, R62, R63). -/
inductive SelLayout where
  /-- Layout `A`: `sel` in bits 13..12, `inv` in bit 14, bit 15 unused (R62). -/
  | layoutA
  /-- Layout `B`: `sel` in bits 14..12, `inv` in bit 15 (R63; notes/assumptions/12.md). -/
  | layoutB
deriving DecidableEq, Repr

/-- The two build parameters of the core (R2). They are no state: a parameter of the step, fixed for a
build (R20, R30). -/
structure Config where
  /-- `SEL_LAYOUT`. -/
  selLayout : SelLayout
  /-- `CHECKS`: true is `on`, false is `off`. -/
  checks : Bool
deriving DecidableEq, Repr

/-- This hardware: `SEL_LAYOUT = A`, `CHECKS = on` (R4). -/
def Config.thisHardware : Config where
  selLayout := .layoutA
  checks := true

/-- FREE VALUE (R101, spec/93_implementation_defined.md item 3): what EVAL answers for a selector above 7
under `CHECKS = off`, one boolean for each draw; "a model must not fix the value". notes/assumptions/9.md. -/
opaque Config.selDraw : Nat → Bool

/-- FREE VALUE (R26, R171): `PC` at power-on, before the first INIT. notes/assumptions/5.md. -/
opaque Config.powerOnPc : Addr

/-- FREE VALUE (R26, R171): the word at each address of `MEM` at power-on. notes/assumptions/5.md. -/
opaque Config.powerOnWord : Nat → Word

/-- FREE VALUE (R26, R171): a word whose fields stand in `OUT` at power-on. notes/assumptions/5.md. -/
opaque Config.powerOnOut : Word

end Sys2Proof
end

