-- ==== Sys2Proof/Syntax.lean ====
section
/-! DEFINITION. The instructions, the records the operations pass around and the operations the host issues
(spec/00_scope.md R7, R8, R12, R13; spec/30_encoding.md R60 to R74; spec/41_condition_mux.md R102). -/

namespace Sys2Proof

/-- The instruction record `Instr` (R12), one constructor for each row of spec/opcode_table.json. Every
word is the one instruction; the layout decides which record it decodes to (R73). -/
inductive Instr where
  /-- `UWORD`, the record under `SEL_LAYOUT = A`: a 2-bit selector (R62). -/
  | uword (jump : Addr) (up down door clr : Bool) (sel : BitVec 2) (inv : Bool)
  /-- `UWORD_B`, the record under `SEL_LAYOUT = B`: a 3-bit selector (R63). -/
  | uwordB (jump : Addr) (up down door clr : Bool) (sel : BitVec 3) (inv : Bool)
deriving DecidableEq, Repr

/-- `ZERO_INSTR`: every field 0 (R12). -/
def Instr.zero : SelLayout → Instr
  | .layoutA => .uword 0 false false false false 0 false
  | .layoutB => .uwordB 0 false false false false 0 false

/-- The record ENCODE is given: the seven fields as naturals, which "may be wider than their bit width when
they arrive" (R82). -/
structure RawInstr where
  jump : Nat := 0
  up : Nat := 0
  down : Nat := 0
  door : Nat := 0
  clr : Nat := 0
  sel : Nat := 0
  inv : Nat := 0
deriving DecidableEq, Repr

/-- The names of the seven fields (R12), which `F_ENC_WIDTH` reports (R150). -/
inductive InstrField where
  | jump | up | down | door | clr | sel | inv
deriving DecidableEq, Repr

/-- The selector domain: exactly 8 members, for 0 to 7 in this order (R102). -/
inductive Selector where
  /-- `ANY` = 0: "call pending below OR same OR above". -/
  | any
  /-- `BELOW` = 1. -/
  | below
  /-- `SAME` = 2. -/
  | same
  /-- `ABOVE` = 3. -/
  | above
  /-- `CLOSED` = 4. -/
  | closed
  /-- `OPEN` = 5. -/
  | opened
  /-- `RSVD` = 6: reserved, constant false (R71). -/
  | rsvd
  /-- `FALSE` = 7: constant false. -/
  | never
deriving DecidableEq, Repr

/-- The five condition inputs (R13). Input ports, not state of the core (R31); all 32 combinations are
valid. -/
structure Inputs where
  callBelow : Bool
  callSame : Bool
  callAbove : Bool
  doorClosed : Bool
  doorOpen : Bool
deriving DecidableEq, Repr

/-- The four output ports (R8, R130). -/
structure Outputs where
  up : Bool
  down : Bool
  door : Bool
  clr : Bool
deriving DecidableEq, Repr

/-- One operation the host issues (R3, R7, R134). Each is one atomic transition; the last three are the
pure functions, of which only a fault touches the state (R7, R151). -/
inductive HostOp where
  /-- INIT, the reset (R170). -/
  | init
  /-- LOAD(addr, w) (R43). -/
  | load (addr : Addr) (w : Word)
  /-- STEP(c), with the condition the host supplies (R120). -/
  | step (c : Bool)
  /-- TICK(in): EVAL on the inputs, then STEP (R128). -/
  | tick (inp : Inputs)
  /-- DECODE(w) (R80). -/
  | decode (w : Word)
  /-- ENCODE(i), with the fields as naturals (R82). -/
  | encode (i : RawInstr)
  /-- EVAL(inv, sel, in) at a software port that takes any natural as selector (R100, R101). -/
  | eval (inv : Bool) (sel : Nat) (inp : Inputs)
deriving DecidableEq, Repr

/-- The operand of `sel=` in the assembler notation: a name or a number (R74). -/
inductive AsmSel where
  | name (n : Selector)
  | number (n : Nat)
deriving DecidableEq, Repr

/-- How a line of the notation gives the condition (R74). DESIGN CHOICE (notes/assumptions/14.md): R74 does not say
whether `INV` may follow `cond=TRUE` or `cond=FALSE`; there is no such line. -/
inductive AsmCond where
  /-- `[sel=<name or number>] [INV]`; an absent `sel=` means 0. -/
  | select (sel : Option AsmSel) (inv : Bool)
  /-- `cond=TRUE`, layout B only. -/
  | condTrue
  /-- `cond=FALSE`, layout B only. -/
  | condFalse
deriving DecidableEq, Repr

/-- One line of the assembler notation of R74. -/
inductive AsmLine where
  /-- `UWORD jump=<n> [UP] [DOWN] [DOOR] [CLR] <condition>`; an absent `jump=` means 0. -/
  | uword (jump : Option Nat) (up down door clr : Bool) (cond : AsmCond)
  /-- `ZERO`, the all-zero word. -/
  | zero
deriving DecidableEq, Repr

end Sys2Proof
end

