-- ==== Sys2Proof/WellFormed.lean ====
section
/-! DEFINITION. What a well-formed instruction is (spec/30_encoding.md R62 to R64; spec/40_decoder.md R82 to R85).
The widths of a decoded record's fields stand in its type, and no combination of field values is rejected
(R85), so two checks are left: the record is of the layout in use, and a record of naturals fits. -/

namespace Sys2Proof

/-- The layout a record belongs to: `UWORD` is layout A's, `UWORD_B` layout B's (R73). -/
def Instr.layout : Instr → SelLayout
  | .uword .. => .layoutA
  | .uwordB .. => .layoutB

/-- A record of the layout in use; the layouts are "mutually incompatible" (R64). -/
def Instr.ofLayout (l : SelLayout) (i : Instr) : Bool := i.layout = l

/-- Well-formed on this hardware, which is `SEL_LAYOUT = A` (R4, R64). -/
def Instr.wellFormed (i : Instr) : Bool := i.ofLayout Config.thisHardware.selLayout

/-- Every field of a record of naturals fits its width (R12, R83). -/
def RawInstr.fits (l : SelLayout) (r : RawInstr) : Bool :=
  r.jump < 256 && r.up < 2 && r.down < 2 && r.door < 2 && r.clr < 2 &&
    r.sel < (match l with | .layoutA => 4 | .layoutB => 8) && r.inv < 2

end Sys2Proof
end

