-- ==== Sys2Proof/Decode.lean ====
section
/-! DEFINITION. DECODE and ENCODE (spec/40_decoder.md R80, R82, R83; spec/30_encoding.md R62, R63, R65, R69), and the
word numbering of spec/opcode_table.json. -/

namespace Sys2Proof

/-- DECODE (R80): total over all 65536 words, every field taken by a fixed shift and mask (R65). Under
layout A `w[15]` is not read (R69). -/
def decode (l : SelLayout) (w : Word) : Instr :=
  let jump := w.extractLsb' 0 8
  let up := w.getLsbD 8
  let down := w.getLsbD 9
  let door := w.getLsbD 10
  let clr := w.getLsbD 11
  match l with
  | .layoutA => .uword jump up down door clr (w.extractLsb' 12 2) (w.getLsbD 14)
  | .layoutB => .uwordB jump up down door clr (w.extractLsb' 12 3) (w.getLsbD 15)

/-- Why a sequence of words holds no instruction. -/
inductive DecodeError where
  /-- There is no word to read. No 16-bit word is refused (R70). -/
  | truncated
deriving DecidableEq, Repr

/-- The decoder over a sequence of words: it always takes exactly one 16-bit word (R60) and leaves the
rest. -/
def decodeWords (l : SelLayout) : List Word → Except DecodeError (Instr × List Word)
  | [] => .error .truncated
  | w :: rest => .ok (decode l w, rest)

/-- The instruction read from one opcode-table row's bits on this hardware. Every row has 16 bits; a
shorter `nbits` leaves the bits above it 0. Layout A is this hardware's, so every word is `UWORD`
(R73; notes/assumptions/1.md). -/
def decodeTableWord (nbits w : Nat) : Option Instr :=
  if nbits ≤ 16 then
    match decodeWords Config.thisHardware.selLayout [BitVec.ofNat 16 (w % 2 ^ nbits)] with
    | .ok (i, _) => some i
    | .error _ => none
  else none

/-- The word of a record whose fields have their widths, the table's pattern of bits read from bit 15 down
(R62, R63). Under layout A bit 15 is 0 (R69). -/
def encode : Instr → Word
  | .uword jump up down door clr sel inv =>
    0#1 ++ BitVec.ofBool inv ++ sel ++ BitVec.ofBool clr ++ BitVec.ofBool door ++ BitVec.ofBool down ++
      BitVec.ofBool up ++ jump
  | .uwordB jump up down door clr sel inv =>
    BitVec.ofBool inv ++ sel ++ BitVec.ofBool clr ++ BitVec.ofBool door ++ BitVec.ofBool down ++
      BitVec.ofBool up ++ jump

/-- A record's fields as naturals, the form ENCODE is given them in (R82). -/
def Instr.toRaw : Instr → RawInstr
  | .uword jump up down door clr sel inv =>
    ⟨jump.toNat, up.toNat, down.toNat, door.toNat, clr.toNat, sel.toNat, inv.toNat⟩
  | .uwordB jump up down door clr sel inv =>
    ⟨jump.toNat, up.toNat, down.toNat, door.toNat, clr.toNat, sel.toNat, inv.toNat⟩

/-- `SW`, the selector's width (R82). -/
def selWidth : SelLayout → Nat
  | .layoutA => 2
  | .layoutB => 3

/-- A field's name with its width and its value, in the order R83 checks them: jump, up, down, door, clr,
sel, inv. -/
def RawInstr.fields (l : SelLayout) (r : RawInstr) : List (InstrField × Nat × Nat) :=
  [(.jump, 8, r.jump), (.up, 1, r.up), (.down, 1, r.down), (.door, 1, r.door), (.clr, 1, r.clr),
    (.sel, selWidth l, r.sel), (.inv, 1, r.inv)]

/-- `check_width` over the fields in order: the first that does not fit, with its value (R83, R153). -/
def firstTooWide : List (InstrField × Nat × Nat) → Option (InstrField × Nat)
  | [] => none
  | (f, n, v) :: rest => if v ≥ 2 ^ n then some (f, v) else firstTooWide rest

/-- The word R82 composes, each field reduced to its width ("silently truncated by masking on encode"). -/
def packMasked (l : SelLayout) (r : RawInstr) : Word :=
  let low := (r.jump % 256) ||| ((r.up % 2) <<< 8) ||| ((r.down % 2) <<< 9) ||| ((r.door % 2) <<< 10) |||
    ((r.clr % 2) <<< 11) ||| ((r.sel % 2 ^ selWidth l) <<< 12)
  match l with
  | .layoutA => BitVec.ofNat 16 (low ||| ((r.inv % 2) <<< 14))
  | .layoutB => BitVec.ofNat 16 (low ||| ((r.inv % 2) <<< 15))

/-- ENCODE (R82): a pure function. Under `CHECKS = on` the error is what `F_ENC_WIDTH` records; under
`CHECKS = off` it never fails (R83). -/
def encodeRaw (cfg : Config) (r : RawInstr) : Except (InstrField × Nat) Word :=
  match cfg.checks, firstTooWide (r.fields cfg.selLayout) with
  | true, some bad => .error bad
  | _, _ => .ok (packMasked cfg.selLayout r)

end Sys2Proof
end

