-- ==== Sys2Proof/Machine/State.lean ====
section
/-! DEFINITION. The state of the core (spec/10_state.md R20 to R32), the model's own fields for the host's side of
the interface, the ways a step can stop, and the state after reset (spec/70_reset_and_hazards.md R170). -/

namespace Sys2Proof.Machine

/-- The operation `F_UNINIT` records (R150). -/
inductive FaultOp where
  | step
  | load
deriving DecidableEq, Repr

/-- What `FAULT` holds: one of the five causes with its info (R27, R150). -/
inductive FaultRecord where
  /-- `F_UNINIT`: STEP or LOAD while `INIT = 0`. -/
  | uninit (op : FaultOp)
  /-- `F_PC_RANGE`: STEP with `PC` outside the memory; the info is `PC`. -/
  | pcRange (pc : Addr)
  /-- `F_LOAD_RANGE`: LOAD outside the memory; the info is the address. -/
  | loadRange (addr : Addr)
  /-- `F_ENC_WIDTH`: ENCODE of a field that does not fit its width. -/
  | encWidth (field : InstrField) (value : Nat)
  /-- `F_SEL_RANGE`: EVAL of a selector above 7. -/
  | selRange (sel : Nat)
deriving DecidableEq, Repr

/-- How a step stops. RAISING one of the five faults of R150 is a next state in which `FAULT` is written
(R151); what stops the machine is any operation after that. -/
inductive Fault where
  /-- Raised by every step in a state whose `FAULT` is set: "no operation is enabled ... the CORE is stuck in
  the faulted state for good" (R151). The record is what `FAULT` holds. Safe: the spec gives no transition. -/
  | stuck (r : FaultRecord)
deriving DecidableEq, Repr

/-- How a step is refused. -/
inductive Refusal where
  /-- An instruction with no meaning yet, rejected by name in `exec`. Safe. No arm uses it now. -/
  | notModelled (mnemonic : String)
  /-- Raised by a meaning in a state in which the host requests no STEP and no TICK: "the CORE never steps on
  its own" (R6). `step` calls no meaning in such a state, so no step is refused. Safe.
  notes/assumptions/11.md. -/
  | noStepRequested
deriving DecidableEq, Repr

/-- What the last operation returned to the host (R134; notes/assumptions/10.md). -/
inductive Reply where
  /-- INIT, LOAD or a fault: nothing is returned. -/
  | nothing
  /-- The record STEP or DECODE returned. -/
  | instr (i : Instr)
  /-- The outputs TICK returned. -/
  | outputs (o : Outputs)
  /-- The word ENCODE returned. -/
  | word (w : Word)
  /-- The boolean EVAL returned. -/
  | cond (c : Bool)
deriving DecidableEq, Repr

/-- `MEM` as plain data: the two halves of word `a` are the cells `2a` (bits 7..0) and `2a + 1` (bits 15..8),
rising, zero halves left out. No operation reads half a word (R46); notes/assumptions/6.md. -/
abbrev Memory := List Host.Cell

/-- The state: the five pieces R20 names, then three fields of the model's own. -/
structure State where
  /-- `PC`, 8 bits (R21). -/
  pc : Addr
  /-- `MEM[0..254]` (R24). -/
  mem : Memory
  /-- `OUT`, the returned instruction (R25). -/
  out : Instr
  /-- `INIT`, 1 after the first INIT (R26). -/
  init : Bool
  /-- `FAULT`, none or a cause with its info (R27). -/
  fault : Option FaultRecord
  /-- MODEL's own: the operations the host will issue, in the order it issues them (R7; notes/assumptions/2.md). -/
  hostOps : List HostOp
  /-- MODEL's own: what the last operation returned to the host (notes/assumptions/10.md). -/
  reply : Reply
  /-- MODEL's own: how many draws of EVAL were taken (R101; notes/assumptions/9.md). -/
  draws : Nat
deriving DecidableEq, Repr

/-- `MEM` after INIT: every word `0x0000` (R170), so no cell is listed. -/
def Memory.cleared : Memory := []

/-- A core built with `cfg` right after reset. INIT is the core's reset (R170; notes/assumptions/4.md): `PC = 0`,
every word `0x0000`, `OUT = ZERO_INSTR` of the layout in use (R4, R12), `INIT = 1`, `FAULT = none`. The host has
requested nothing yet. -/
def State.resetWith (cfg : Config) : State where
  pc := 0
  mem := Memory.cleared
  out := Instr.zero cfg.selLayout
  init := true
  fault := none
  hostOps := []
  reply := .nothing
  draws := 0

/-- This hardware right after reset (R4, R170). -/
def State.reset : State := State.resetWith Config.thisHardware

end Sys2Proof.Machine
end

