-- ==== Sys2Proof/Machine/Operands.lean ====
section
/-! DEFINITION. The fields of a record as their users see them (spec/30_encoding.md R65 to R68; spec/42_sequencer.md
R130). -/

namespace Sys2Proof.Machine

/-- `jump`, an absolute word address, used unchanged (R66). -/
def jumpOf : Instr → Addr
  | .uword jump .. => jump
  | .uwordB jump .. => jump

/-- What the `sel` field puts on the 3-bit CMUX select input: `zext_3(sel)` under layout A, the field itself
under layout B (R68). -/
def selPort : Instr → BitVec 3
  | .uword _ _ _ _ _ sel _ => sel.zeroExtend 3
  | .uwordB _ _ _ _ _ sel _ => sel

/-- What drives the CMUX invert input (R68). -/
def invPort : Instr → Bool
  | .uword _ _ _ _ _ _ inv => inv
  | .uwordB _ _ _ _ _ _ inv => inv

/-- The four output requests, passed through unchanged (R67, R130). -/
def outputsOf : Instr → Outputs
  | .uword _ up down door clr _ _ => ⟨up, down, door, clr⟩
  | .uwordB _ up down door clr _ _ => ⟨up, down, door, clr⟩

/-- The output ports, driven from `OUT` (R130). -/
def State.outputPorts (s : State) : Outputs := outputsOf s.out

/-- The code of a fault cause (R150). -/
def faultCode : FaultRecord → Nat
  | .uninit _ => 1
  | .pcRange _ => 2
  | .loadRange _ => 3
  | .encWidth _ _ => 4
  | .selRange _ => 5

/-- The `fault` status port: the cause's code and the record, from `FAULT` (R8). -/
def State.faultPort (s : State) : Option (Nat × FaultRecord) := s.fault.map fun r => (faultCode r, r)

end Sys2Proof.Machine
end

