-- ==== Sys2Proof/Machine/Flags.lean ====
section
/-! DEFINITION. The condition multiplexer CMUX (spec/41_condition_mux.md R100 to R103). The core stores no flag
(R29): the branch condition is computed here and latched nowhere. -/

namespace Sys2Proof.Machine

/-- The member of the selector domain a 3-bit select input names (R102). -/
def selectorOf (sel : BitVec 3) : Selector :=
  match sel.toNat with
  | 0 => .any
  | 1 => .below
  | 2 => .same
  | 3 => .above
  | 4 => .closed
  | 5 => .opened
  | 6 => .rsvd
  | _ => .never

/-- The condition a selector picks, before the invert (R100's table). -/
def rawCondition (inp : Inputs) : Selector → Bool
  | .any => inp.callBelow || inp.callSame || inp.callAbove
  | .below => inp.callBelow
  | .same => inp.callSame
  | .above => inp.callAbove
  | .closed => inp.doorClosed
  | .opened => inp.doorOpen
  | .rsvd => false
  | .never => false

/-- EVAL on the 3-bit select input (R100). -/
def evaluate (inv : Bool) (sel : BitVec 3) (inp : Inputs) : Bool :=
  xor (rawCondition inp (selectorOf sel)) inv

/-- EVAL at a software port that takes any natural (R101). For `sel > 7` it fails with the selector under
`CHECKS = on`, and under `CHECKS = off` answers the draw it is given. -/
def evaluateWide (cfg : Config) (draw : Bool) (inv : Bool) (sel : Nat) (inp : Inputs) : Except Nat Bool :=
  if sel ≤ 7 then .ok (evaluate inv (BitVec.ofNat 3 sel) inp)
  else if cfg.checks then .error sel
  else .ok draw

/-- `condition_active` of the STEP the host requests: the host's own for STEP (R120), for TICK what CMUX
makes of `OUT` and the sampled inputs (R128). None where the host requests neither. -/
def conditionActive (s : State) : Option Bool :=
  match s.hostOps with
  | .step c :: _ => some c
  | .tick inp :: _ => some (evaluate (invPort s.out) (selPort s.out) inp)
  | _ => none

end Sys2Proof.Machine
end

