-- ==== Sys2Proof/Machine/Ops.lean ====
section
/-! DEFINITION. The operations the meanings share: `MEM` (spec/20_memory.md), raising a fault
(spec/60_exceptions.md R151 to R153), and what one STEP does around the fetched record (spec/42_sequencer.md
R120 to R125). -/

namespace Sys2Proof.Machine

/-- The canonical form of `MEM`: cells rising, inside the memory, none equal to what an unlisted cell reads as. -/
abbrev Memory.wf (m : Memory) : Prop :=
  m.Pairwise (fun x y => x.1 < y.1) ∧ ∀ c ∈ m, c.1 < 2 * memSize ∧ c.2 ≠ 0#8

/-- One cell of `MEM`. An unlisted cell reads as 0, what INIT leaves in every word (R170). -/
def Memory.readCell : Memory → Nat → Half
  | [], _ => 0#8
  | (k, b) :: m, a => if a = k then b else Memory.readCell m a

/-- One cell of `MEM` written, keeping the canonical form. -/
def Memory.writeCell : Memory → Nat → Half → Memory
  | [], a, b => if b = 0#8 then [] else [(a, b)]
  | (k, c) :: m, a, b =>
    if a < k then (if b = 0#8 then (k, c) :: m else (a, b) :: (k, c) :: m)
    else if a = k then (if b = 0#8 then m else (a, b) :: m)
    else (k, c) :: Memory.writeCell m a b

/-- `MemRead(a, 1)`: the word `MEM[a]`; the operation checks `a < N` before the call (R11, R49). -/
def Memory.readWord (m : Memory) (a : Nat) : Word :=
  m.readCell (2 * a + 1) ++ m.readCell (2 * a)

/-- `MemWrite(a, 1, w)`: `MEM[a] <- w` (R11); the operation checks `a < N` before the call. -/
def Memory.writeWord (m : Memory) (a : Nat) (w : Word) : Memory :=
  (m.writeCell (2 * a) (w.extractLsb' 0 8)).writeCell (2 * a + 1) (w.extractLsb' 8 8)

/-- A memory whose words 0 to `n - 1` are `f`'s. -/
def Memory.ofWords : Nat → (Nat → Word) → Memory
  | 0, _ => Memory.cleared
  | n + 1, f => (Memory.ofWords n f).writeWord n (f n)

/-- The machine at power-on (R26, R171): `INIT = 0`, `FAULT = none`; `PC`, `MEM` and `OUT` are free values. -/
def State.powerOn (cfg : Config) : State where
  pc := Config.powerOnPc
  mem := Memory.ofWords memSize Config.powerOnWord
  out := decode cfg.selLayout Config.powerOnOut
  init := false
  fault := none
  hostOps := []
  reply := .nothing
  draws := 0

/-- An operation is over: it leaves the host's queue and its answer goes to the host. -/
def State.retire (s : State) (r : Reply) : State :=
  { s with hostOps := s.hostOps.tail, reply := r }

/-- The state a fault leaves (R151): `FAULT` is written; `PC`, `MEM`, `OUT` and `INIT` keep their values. -/
def State.faulted (s : State) (r : FaultRecord) : State :=
  { s.retire .nothing with fault := some r }

/-- `raise F_x(info)` (R11, R151): the operation ends in the faulted state, where the next step is stuck. No
vector, handler or saved `PC` exists (R152), and nothing returns from a fault (R155). -/
def raise (r : FaultRecord) (s : State) : Host.Outcome State Fault Refusal :=
  .next (s.faulted r)

/-- The new `PC` of a STEP: `jump` where the condition is true, unchecked (R123), else `(PC + 1) mod 255`
(R124). -/
def nextPc (c : Bool) (jump pc : Addr) : Addr :=
  if c then jump else BitVec.ofNat 8 ((pc.toNat + 1) % memSize)

/-- What the host is answered: the record for STEP, the outputs for TICK (R134). -/
def stepReply (s : State) (i : Instr) : Reply :=
  match s.hostOps with
  | .tick _ :: _ => .outputs (outputsOf i)
  | _ => .instr i

/-- The state a completed STEP leaves: `PC` and `OUT` are written (R120, R125). -/
def State.stepped (s : State) (c : Bool) (i : Instr) : State :=
  { s.retire (stepReply s i) with pc := nextPc c (jumpOf i) s.pc, out := i }

/-- STEP's entry (R120, R121): no transition once `FAULT` is set, then `F_UNINIT` before `F_PC_RANGE` (R153),
whatever `CHECKS` is; past it, `body` with `condition_active`. -/
def stepEntry (s : State) (body : Bool → Host.Outcome State Fault Refusal) :
    Host.Outcome State Fault Refusal :=
  match s.fault with
  | some r => .fault (.stuck r)
  | none =>
    match conditionActive s with
    | none => .refused .noStepRequested
    | some c =>
      if s.init = false then raise (.uninit .step) s
      else if s.pc.toNat ≥ memSize then raise (.pcRange s.pc) s
      else body c

/-- STEP of the record `i`, the decode of the fetched word: the entry, then `PC` and `OUT` (R120). It reads of
the record only `jump` (R126). -/
def stepInstr (i : Instr) (s : State) : Host.Outcome State Fault Refusal :=
  stepEntry s fun c => .next (s.stepped c i)

/-- The fetch and decode of STEP (R122): exactly `MEM[PC]`. STEP's entry has checked `PC`. -/
def fetchInstr (cfg : Config) (s : State) : Instr :=
  decode cfg.selLayout (s.mem.readWord s.pc.toNat)

/-- The address the next STEP fetches from, or the reset entry point 0 where `PC` is no address (R48, R121). -/
def fetchAddr (s : State) : Addr := if s.pc.toNat < memSize then s.pc else 0

/-- The five condition inputs all 0: no call pending, the door in between (R31). -/
def noInputs : Inputs := ⟨false, false, false, false, false⟩

/-- `s` with the word `w` where the next STEP fetches, and all that it takes for that STEP to run it: the core
is past INIT and not faulted, `PC` is an address, and the host requests a STEP or a TICK (its own request is
kept; else a TICK with all inputs 0). It stands for the boot of R174; notes/assumptions/3.md. -/
def State.withWordAtFetch (s : State) (w : Word) : State :=
  { s with
    pc := fetchAddr s
    mem := s.mem.writeWord (fetchAddr s).toNat w
    init := true
    fault := none
    hostOps := match conditionActive s with
      | some _ => s.hostOps
      | none => .tick noInputs :: s.hostOps }

end Sys2Proof.Machine
end

