-- ==== Sys2Proof/Machine/Uword.lean ====
section
/-! DEFINITION. The meaning of `UWORD` and `UWORD_B`, the rows of spec/opcode_table.json: one STEP (spec/42_sequencer.md
R120; spec/30_encoding.md R73). -/

namespace Sys2Proof.Machine

/-- `UWORD`: one STEP of a layout A record (R120). The selector and the invert reach CMUX only through `OUT`,
in the next TICK (R126). -/
def execUword (jump : Addr) (up down door clr : Bool) (sel : BitVec 2) (inv : Bool) (s : State) :
    Host.Outcome State Fault Refusal :=
  stepInstr (.uword jump up down door clr sel inv) s

/-- `UWORD_B`: one STEP of a layout B record (R120). -/
def execUwordB (jump : Addr) (up down door clr : Bool) (sel : BitVec 3) (inv : Bool) (s : State) :
    Host.Outcome State Fault Refusal :=
  stepInstr (.uwordB jump up down door clr sel inv) s

end Sys2Proof.Machine
end

