-- ==== Sys2Proof/Machine/Dispatch.lean ====
section
/-! DEFINITION. `exec`: one arm for each constructor of `Instr`, each a direct call of its meaning. -/

namespace Sys2Proof.Machine

def exec (i : Instr) (s : State) : Host.Outcome State Fault Refusal :=
  match i with
  | .uword jump up down door clr sel inv => Sys2Proof.Machine.execUword jump up down door clr sel inv s
  | .uwordB jump up down door clr sel inv => Sys2Proof.Machine.execUwordB jump up down door clr sel inv s

end Sys2Proof.Machine
end

