-- ==== Sys2Proof/Machine/HostPort.lean ====
section
/-! DEFINITION. The operations the host issues (spec/00_scope.md R7, R8; spec/42_sequencer.md R134): INIT, LOAD, STEP, TICK
and the pure functions DECODE, ENCODE, EVAL, and the one transition that performs the oldest of them. -/

namespace Sys2Proof.Machine

/-- The state INIT leaves (R170): `PC`, every word of `MEM`, `OUT` and `INIT` are written, `FAULT` is not. -/
def State.initialised (s : State) (cfg : Config) : State :=
  { s.retire .nothing with
    pc := 0, mem := Memory.cleared, out := Instr.zero cfg.selLayout, init := true }

/-- INIT (R170, R172). It raises nothing. -/
def performInit (cfg : Config) (s : State) : Host.Outcome State Fault Refusal :=
  .next (s.initialised cfg)

/-- The state LOAD leaves: `MEM[addr]` only (R43). -/
def State.loaded (s : State) (addr : Addr) (w : Word) : State :=
  { s.retire .nothing with mem := s.mem.writeWord addr.toNat w }

/-- LOAD(addr, w) (R43, R44): `F_UNINIT` before `F_LOAD_RANGE` (R153), whatever `CHECKS` is; the word is not
looked at (R45). -/
def performLoad (addr : Addr) (w : Word) (s : State) : Host.Outcome State Fault Refusal :=
  if s.init = false then raise (.uninit .load) s
  else if addr.toNat ≥ memSize then raise (.loadRange addr) s
  else .next (s.loaded addr w)

/-- DECODE as the host calls it (R80): it writes no state of the core and raises nothing. -/
def performDecode (cfg : Config) (w : Word) (s : State) : Host.Outcome State Fault Refusal :=
  .next (s.retire (.instr (decode cfg.selLayout w)))

/-- ENCODE as the host calls it (R82): its fault also aborts the core's execution (R151; notes/assumptions/8.md). -/
def performEncode (cfg : Config) (i : RawInstr) (s : State) : Host.Outcome State Fault Refusal :=
  match encodeRaw cfg i with
  | .ok w => .next (s.retire (.word w))
  | .error (field, value) => raise (.encWidth field value) s

/-- The state a software EVAL leaves: its answer, and one draw more where it answered with a draw (R101). -/
def State.evaluated (s : State) (sel : Nat) (c : Bool) : State :=
  { s.retire (.cond c) with draws := if sel ≤ 7 then s.draws else s.draws + 1 }

/-- EVAL as the host calls it at a port wider than 3 bits (R100, R101): its fault also aborts the core's
execution (R151; notes/assumptions/8.md). -/
def performEval (cfg : Config) (inv : Bool) (sel : Nat) (inp : Inputs) (s : State) :
    Host.Outcome State Fault Refusal :=
  match evaluateWide cfg (Config.selDraw s.draws) inv sel inp with
  | .ok c => .next (s.evaluated sel c)
  | .error bad => raise (.selRange bad) s

/-- One transition: no operation is enabled once `FAULT` is set (R151); between operations the core holds its
whole state (R161); else the oldest operation the host issues is performed, atomically (R7). `run` is what
STEP and TICK do past STEP's entry. -/
def perform (cfg : Config) (run : State → Host.Outcome State Fault Refusal) (s : State) :
    Host.Outcome State Fault Refusal :=
  match s.fault with
  | some r => .fault (.stuck r)
  | none =>
    match s.hostOps with
    | [] => .next s
    | .init :: _ => performInit cfg s
    | .load addr w :: _ => performLoad addr w s
    | .step _ :: _ => stepEntry s fun _ => run s
    | .tick _ :: _ => stepEntry s fun _ => run s
    | .decode w :: _ => performDecode cfg w s
    | .encode i :: _ => performEncode cfg i s
    | .eval inv sel inp :: _ => performEval cfg inv sel inp s

end Sys2Proof.Machine
end

