-- ==== Sys2Proof/Machine/Step.lean ====
section
/-! DEFINITION. `step`: one transition of the core, the operation the host issues next (spec/00_scope.md R6, R7). The
build's parameters are arguments of `stepWith`; `step` is this hardware's. -/

namespace Sys2Proof.Machine

/-- One transition of a core built with `cfg`; STEP and TICK run the decoded word at `PC` (R120, R128). -/
def stepWith (cfg : Config) (s : State) : Host.Outcome State Fault Refusal :=
  perform cfg (fun t => exec (fetchInstr cfg t) t) s

/-- One transition of this hardware (R4). -/
def step (s : State) : Host.Outcome State Fault Refusal :=
  stepWith Config.thisHardware s

/-- `s` with the `nbits`-bit instruction `w` where the next step fetches; the very next step runs it
(notes/assumptions/3.md). -/
def State.withFetchWord (s : State) (nbits w : Nat) : State :=
  s.withWordAtFetch (BitVec.ofNat 16 (w % 2 ^ nbits))

end Sys2Proof.Machine
end

