-- ==== Sys2Proof/Machine/Assembler.lean ====
section
/-! DEFINITION. The assembler notation of spec/30_encoding.md R74: its lines read and written as text,
which of them are allowed under each layout, and the record each stands for. -/

namespace Sys2Proof.Machine

/-- Why a line is no line of the notation (R74; notes/assumptions/14.md). -/
inductive AsmError where
  /-- `jump=` takes 0 to 255. -/
  | jumpRange (n : Nat)
  /-- "Only 0..3 are allowed under layout A"; 0 to 7 under layout B. -/
  | selRange (n : Nat)
  /-- `cond=TRUE` and `cond=FALSE` are spellings of layout B only. -/
  | layoutBOnly
deriving DecidableEq, Repr

/-- The number of a selector name (R74, R102). -/
def selectorNumber : Selector → Nat
  | .any => 0
  | .below => 1
  | .same => 2
  | .above => 3
  | .closed => 4
  | .opened => 5
  | .rsvd => 6
  | .never => 7

/-- The spelling of a selector name (R74). -/
def selectorName : Selector → String
  | .any => "ANY"
  | .below => "BELOW"
  | .same => "SAME"
  | .above => "ABOVE"
  | .closed => "CLOSED"
  | .opened => "OPEN"
  | .rsvd => "RSVD"
  | .never => "FALSE"

/-- The number that `sel=` gives; an absent `sel=` means 0 (R74). -/
def asmSelNumber : Option AsmSel → Nat
  | none => 0
  | some (.name n) => selectorNumber n
  | some (.number n) => n

/-- The selector and the invert a line gives; `cond=TRUE` is `sel=FALSE INV`, `cond=FALSE` is `sel=FALSE`,
under layout B only (R74). -/
def asmCondition (l : SelLayout) : AsmCond → Except AsmError (Nat × Bool)
  | .select sel inv => .ok (asmSelNumber sel, inv)
  | .condTrue => if l = .layoutB then .ok (selectorNumber .never, true) else .error .layoutBOnly
  | .condFalse => if l = .layoutB then .ok (selectorNumber .never, false) else .error .layoutBOnly

/-- The record a line stands for (R74). An absent `jump=` means 0; `ZERO` is the all-zero word. -/
def assemble (l : SelLayout) : AsmLine → Except AsmError Instr
  | .zero => .ok (Instr.zero l)
  | .uword jump up down door clr cond =>
    match asmCondition l cond with
    | .error e => .error e
    | .ok (sel, inv) =>
      if jump.getD 0 > 255 then .error (.jumpRange (jump.getD 0))
      else if sel ≥ 2 ^ selWidth l then .error (.selRange sel)
      else match l with
        | .layoutA => .ok (.uword (BitVec.ofNat 8 (jump.getD 0)) up down door clr (BitVec.ofNat 2 sel) inv)
        | .layoutB => .ok (.uwordB (BitVec.ofNat 8 (jump.getD 0)) up down door clr (BitVec.ofNat 3 sel) inv)

/-- The text of a condition (R74). -/
def asmCondText : AsmCond → String
  | .select none inv => if inv then " INV" else ""
  | .select (some (.name n)) inv => " sel=" ++ selectorName n ++ (if inv then " INV" else "")
  | .select (some (.number n)) inv => " sel=" ++ toString n ++ (if inv then " INV" else "")
  | .condTrue => " cond=TRUE"
  | .condFalse => " cond=FALSE"

/-- The text of a line (R74). -/
def asmText : AsmLine → String
  | .zero => "ZERO"
  | .uword jump up down door clr cond =>
    "UWORD" ++ (match jump with | some n => " jump=" ++ toString n | none => "") ++
      (if up then " UP" else "") ++ (if down then " DOWN" else "") ++ (if door then " DOOR" else "") ++
      (if clr then " CLR" else "") ++ asmCondText cond

/-- The words of a text between its spaces; that any number of spaces may stand between two words is the model's
choice (notes/assumptions/14.md). -/
def asmWords : List Char → List (List Char)
  | [] => [[]]
  | c :: cs =>
    match asmWords cs with
    | [] => [[c]]
    | w :: ws => if c = ' ' then [] :: w :: ws else (c :: w) :: ws

/-- What follows `key` in a word that begins with it. -/
def afterKey : List Char → List Char → Option (List Char)
  | [], w => some w
  | _ :: _, [] => none
  | k :: ks, c :: cs => if k = c then afterKey ks cs else none

/-- A decimal number, leading zeros allowed (the model's choice, notes/assumptions/14.md). -/
def asmNumber (w : List Char) : Option Nat :=
  if w ≠ [] ∧ w.all (·.isDigit) then some (w.foldl (fun n c => 10 * n + (c.toNat - '0'.toNat)) 0) else none

/-- An optional keyword at its place: whether it stands there, and the words after it. -/
def takeKeyword (k : String) : List (List Char) → Bool × List (List Char)
  | [] => (false, [])
  | w :: ws => if w = k.toList then (true, ws) else (false, w :: ws)

/-- The operand of `sel=`. -/
def asmSelOperand (w : List Char) : Option AsmSel :=
  match [Selector.any, .below, .same, .above, .closed, .opened, .rsvd, .never].find?
      (fun n => decide ((selectorName n).toList = w)) with
  | some n => some (.name n)
  | none => (asmNumber w).map .number

/-- The end of a line: `[sel=<name or number>] [INV]`, `cond=TRUE` or `cond=FALSE` (R74). DESIGN CHOICE
(notes/assumptions/14.md): R74 does not say whether `[INV]` may follow `cond=TRUE` or `cond=FALSE`; here it may
not, and such a text is none of the notation. -/
def parseCond : List (List Char) → Option AsmCond
  | [] => some (.select none false)
  | w :: ws =>
    if w = "cond=TRUE".toList ∧ ws = [] then some .condTrue
    else if w = "cond=FALSE".toList ∧ ws = [] then some .condFalse
    else
      match afterKey "sel=".toList w with
      | some operand =>
        match asmSelOperand operand, takeKeyword "INV" ws with
        | some sel, (inv, []) => some (.select (some sel) inv)
        | _, _ => none
      | none =>
        match takeKeyword "INV" (w :: ws) with
        | (true, []) => some (.select none true)
        | _ => none

/-- What follows `UWORD` and its `jump=`: the flag keywords in their order, each there or not, then the condition. -/
def parseFlags (jump : Option Nat) (ws : List (List Char)) : Option AsmLine :=
  let (up, ws) := takeKeyword "UP" ws
  let (down, ws) := takeKeyword "DOWN" ws
  let (door, ws) := takeKeyword "DOOR" ws
  let (clr, ws) := takeKeyword "CLR" ws
  (parseCond ws).map (.uword jump up down door clr)

/-- The line a text of the notation stands for (R74); none where the text is not of the notation. -/
def asmParse (text : String) : Option AsmLine :=
  match (asmWords text.toList).filter (fun w => !w.isEmpty) with
  | [] => none
  | first :: ws =>
    if first = "ZERO".toList then (if ws = [] then some .zero else none)
    else if first ≠ "UWORD".toList then none
    else
      match ws with
      | [] => parseFlags none []
      | w :: rest =>
        match afterKey "jump=".toList w with
        | some operand => (asmNumber operand).bind fun n => parseFlags (some n) rest
        | none => parseFlags none (w :: rest)

end Sys2Proof.Machine
end

