-- ==== Sys2Proof/Safety.lean ====
section
/-! DEFINITION. What claims about runs are stated in: the state invariant, the contract of loader and host
(spec/20_memory.md R45; spec/42_sequencer.md R134; spec/70_reset_and_hazards.md R177), and the recurrence of a run of ticks
(spec/70_reset_and_hazards.md R175). -/

namespace Sys2Proof.Machine

/-- A core built with `cfg` behind the host's interface, with that build's step and reset state (R4);
`Sys2Proof.core` is this hardware's. -/
def coreWith (cfg : Config) : Host.Core where
  State := State
  Fault := Fault
  Refusal := Refusal
  step := stepWith cfg
  reset := State.resetWith cfg

/-- The invariant of the state: `MEM` is in its canonical form, and `OUT` holds a record of the layout the core
is built for (R64). -/
abbrev State.Inv (cfg : Config) (s : State) : Prop :=
  s.mem.wf ∧ s.out.ofLayout cfg.selLayout = true

/-- The loader's invariant: "jump address always in [0, memory size)" for every word of `MEM` (R45, R177). -/
abbrev JumpsInRange (cfg : Config) (m : Memory) : Prop :=
  ∀ a < memSize, (jumpOf (decode cfg.selLayout (m.readWord a))).toNat < memSize

/-- What the host owes with each operation (R134): LOAD at an address, of a word that keeps the loader's
invariant; ENCODE of fields that fit; EVAL of a selector in [0, 7]. -/
def keepsContract (cfg : Config) : HostOp → Bool
  | .load addr w => addr.toNat < memSize && (jumpOf (decode cfg.selLayout w)).toNat < memSize
  | .encode i => i.fits cfg.selLayout
  | .eval _ sel _ => sel ≤ 7
  | _ => true

/-- A state from which no run faults: past INIT, not faulted, `PC` an address, loader and host keeping their
contracts. -/
abbrev State.Safe (cfg : Config) (s : State) : Prop :=
  s.fault = none ∧ s.init = true ∧ s.pc.toNat < memSize ∧ JumpsInRange cfg s.mem ∧
    ∀ op ∈ s.hostOps, keepsContract cfg op = true

/-- One tick of R175's recurrence, on `PC` and the record of the tick before: the condition comes from that
record's `inv` and `sel` and this tick's inputs, the jump from the word fetched now. -/
def recurrenceTick (cfg : Config) (m : Memory) (p : Addr × Instr) (inp : Inputs) : Addr × Instr :=
  let i := decode cfg.selLayout (m.readWord p.1.toNat)
  (if evaluate (invPort p.2) (selPort p.2) inp then jumpOf i else BitVec.ofNat 8 ((p.1.toNat + 1) % 255), i)

/-- R175's recurrence over the input samples of a run. -/
def recurrenceRun (cfg : Config) (m : Memory) (p : Addr × Instr) (ins : List Inputs) : Addr × Instr :=
  ins.foldl (recurrenceTick cfg m) p

/-- The word the last LOAD of `loads`, in order, wrote at address `a`; none where no LOAD wrote there (R50). -/
def lastLoaded : List (Addr × Word) → Nat → Option Word
  | [], _ => none
  | (addr, w) :: rest, a => (lastLoaded rest a).or (if addr.toNat = a then some w else none)

end Sys2Proof.Machine
end

