-- ==== Sys2Proof/Certificates/Slice0/Obligations.lean ====
section
/-! DEFINITION. The statements for the provers, each a `Prop`. Where a statement is for every `Config`, this
hardware is the case `Config.thisHardware`, of which `step` is `stepWith`. -/

open Sys2Proof Sys2Proof.Machine

/-! ### Encoding -/

/-- Six words of 95_test_vectors.md V1, each decoded under layout A and under layout B (R62, R63, R80), and one of them
read as a row of the opcode table. Where layout B's selector lies is the spec's own inference (R63;
notes/assumptions/12.md). -/
def Obligations.SampleWordsDecodeAsTheTableSays : Prop :=
  decode .layoutA 0x5A5A = .uword 90 false true false true 1 true ∧
  decode .layoutB 0x5A5A = .uwordB 90 false true false true 5 false ∧
  decode .layoutA 0x4400 = .uword 0 false false true false 0 true ∧
  decode .layoutB 0x4400 = .uwordB 0 false false true false 4 false ∧
  decode .layoutA 0xABCD = .uword 205 true true false true 2 false ∧
  decode .layoutB 0xABCD = .uwordB 205 true true false true 2 true ∧
  decode .layoutA 0x8000 = .uword 0 false false false false 0 false ∧
  decode .layoutB 0x8000 = .uwordB 0 false false false false 0 true ∧
  decode .layoutA 0x7FFF = .uword 255 true true true true 3 true ∧
  decode .layoutB 0x7FFF = .uwordB 255 true true true true 7 false ∧
  decode .layoutA 0x1234 = .uword 52 false true false false 1 false ∧
  decode .layoutB 0x1234 = .uwordB 52 false true false false 1 false ∧
  decodeTableWord 16 0x1234 = some (.uword 52 false true false false 1 false)

/-- Decoding the word of a record of the layout gives the record back, every field at every value (R84 a, for
the encoder that writes the table's pattern of bits). -/
def Obligations.DecodeOfEncodeIsTheRecord : Prop :=
  ∀ (l : SelLayout) (i : Instr), i.ofLayout l = true → decode l (encode i) = i

/-- ENCODE as R82 composes it and the encoder that writes the table's pattern of bits (R62, R63) give the same
word, whatever `CHECKS` is. -/
def Obligations.EncodeByMaskingWritesTheBitPattern : Prop :=
  ∀ (cfg : Config) (i : Instr), i.ofLayout cfg.selLayout = true → encodeRaw cfg i.toRaw = .ok (encode i)

/-- R84: the round trip (a) for every record whose fields fit, (b) for every word under each layout, and the
injectivity of DECODE, all for ENCODE on naturals (R82) under either value of `CHECKS`. -/
def Obligations.EncodeAndDecodeRoundTrip : Prop :=
  (∀ (cfg : Config) (r : RawInstr), r.fits cfg.selLayout = true →
    ∃ w, encodeRaw cfg r = .ok w ∧ (decode cfg.selLayout w).toRaw = r) ∧
  (∀ (checks : Bool) (w : Word),
    encodeRaw ⟨.layoutA, checks⟩ (decode .layoutA w).toRaw = .ok (w &&& 0x7FFF) ∧
    encodeRaw ⟨.layoutB, checks⟩ (decode .layoutB w).toRaw = .ok w) ∧
  (∀ w w' : Word, w.getLsbD 15 = false → w'.getLsbD 15 = false →
    decode .layoutA w = decode .layoutA w' → w = w') ∧
  (∀ w w' : Word, decode .layoutB w = decode .layoutB w' → w = w')

/-- R82 with R83's check: under `CHECKS = on` the first field that does not fit, in the order jump, up, down,
door, clr, sel, inv, is the error; else, and always under `CHECKS = off`, the word is the sum of the fields,
each reduced to its width and placed at its bit. -/
def Obligations.EncodeReportsTheFirstWideFieldOrPacks : Prop :=
  ∀ (l : SelLayout) (checks : Bool) (r : RawInstr),
    let selSize := if l = .layoutA then 4 else 8
    let invPlace := if l = .layoutA then 16384 else 32768
    encodeRaw ⟨l, checks⟩ r =
      if checks = true ∧ 256 ≤ r.jump then .error (.jump, r.jump)
      else if checks = true ∧ 2 ≤ r.up then .error (.up, r.up)
      else if checks = true ∧ 2 ≤ r.down then .error (.down, r.down)
      else if checks = true ∧ 2 ≤ r.door then .error (.door, r.door)
      else if checks = true ∧ 2 ≤ r.clr then .error (.clr, r.clr)
      else if checks = true ∧ selSize ≤ r.sel then .error (.sel, r.sel)
      else if checks = true ∧ 2 ≤ r.inv then .error (.inv, r.inv)
      else .ok (BitVec.ofNat 16 (r.jump % 256 + 256 * (r.up % 2) + 512 * (r.down % 2) + 1024 * (r.door % 2) +
        2048 * (r.clr % 2) + 4096 * (r.sel % selSize) + invPlace * (r.inv % 2)))

/-- R69, layout A: DECODE ignores bit 15, ENCODE writes 0 there, LOAD stores the word as given, and two
memories whose words differ only in bit 15 give the same transition in everything else, the words still
differing only in bit 15 after it. -/
def Obligations.Bit15OfLayoutAIsNoField : Prop :=
  (∀ w : Word, decode .layoutA (w ||| 0x8000) = decode .layoutA (w &&& 0x7FFF)) ∧
  (∀ (checks : Bool) (r : RawInstr) (w : Word),
    encodeRaw ⟨.layoutA, checks⟩ r = .ok w → w.getLsbD 15 = false) ∧
  (∀ (checks : Bool) (s t : State) (addr : Addr) (w : Word) (q : List HostOp), s.mem.wf → s.init = true →
    addr.toNat < 255 → s.hostOps = .load addr w :: q → stepWith ⟨.layoutA, checks⟩ s = .next t →
    t.mem.readWord addr.toNat = w) ∧
  ∀ (checks : Bool) (s t : State) (m : Memory), s.mem.wf → m.wf →
    (∀ a, s.mem.readWord a &&& 0x7FFF = m.readWord a &&& 0x7FFF) →
    stepWith ⟨.layoutA, checks⟩ s = .next t →
    ∃ t', stepWith ⟨.layoutA, checks⟩ { s with mem := m } = .next t' ∧ { t' with mem := t.mem } = t ∧
      ∀ a, t.mem.readWord a &&& 0x7FFF = t'.mem.readWord a &&& 0x7FFF

/-- R70: every 16-bit word is one instruction of the layout, and whatever word stands at `PC`, a STEP or TICK past
the entry completes and raises no fault. -/
def Obligations.NoWordIsIllegal : Prop :=
  (∀ (l : SelLayout) (w : Word) (rest : List Word),
    ∃ i, decodeWords l (w :: rest) = .ok (i, rest) ∧ i.ofLayout l = true) ∧
  ∀ (cfg : Config) (s : State) (c : Bool), s.fault = none → conditionActive s = some c → s.init = true →
    s.pc.toNat < 255 → ∃ t, stepWith cfg s = .next t ∧ t.fault = none

/-! ### The instructions -/

/-- `UWORD` and `UWORD_B` complete: past STEP's entry conditions, `exec` answers the next state of one STEP,
with every field of the state given (R120 to R125). -/
def Obligations.UwordAndUwordBComplete : Prop :=
  ∀ (s : State) (c : Bool), s.fault = none → conditionActive s = some c → s.init = true → s.pc.toNat < 255 →
    (∀ (jump : Addr) (up down door clr : Bool) (sel : BitVec 2) (inv : Bool),
      exec (.uword jump up down door clr sel inv) s = .next
        { s with
          pc := if c then jump else BitVec.ofNat 8 ((s.pc.toNat + 1) % 255)
          out := .uword jump up down door clr sel inv
          hostOps := s.hostOps.tail
          reply := match s.hostOps with
            | .tick _ :: _ => .outputs ⟨up, down, door, clr⟩
            | _ => .instr (.uword jump up down door clr sel inv) }) ∧
    ∀ (jump : Addr) (up down door clr : Bool) (sel : BitVec 3) (inv : Bool),
      exec (.uwordB jump up down door clr sel inv) s = .next
        { s with
          pc := if c then jump else BitVec.ofNat 8 ((s.pc.toNat + 1) % 255)
          out := .uwordB jump up down door clr sel inv
          hostOps := s.hostOps.tail
          reply := match s.hostOps with
            | .tick _ :: _ => .outputs ⟨up, down, door, clr⟩
            | _ => .instr (.uwordB jump up down door clr sel inv) }

/-- Where `UWORD` and `UWORD_B` fault instead: before the first INIT with `F_UNINIT(STEP)`, and past INIT at
`PC = 255` with `F_PC_RANGE(255)`; nothing else of the core is written (R121, R151, R153). -/
def Obligations.UwordAndUwordBFaultAtTheEntry : Prop :=
  ∀ (i : Instr) (s : State) (c : Bool), s.fault = none → conditionActive s = some c →
    (s.init = false → exec i s = .next
      { s with fault := some (.uninit .step), hostOps := s.hostOps.tail, reply := .nothing }) ∧
    (s.init = true → s.pc = 255 → exec i s = .next
      { s with fault := some (.pcRange 255), hostOps := s.hostOps.tail, reply := .nothing })

/-- The frame of `UWORD` and `UWORD_B`: whenever `exec` answers a next state, every cell and every word of `MEM` and
`INIT` are as before, the oldest host operation is gone, and if a fault was raised `PC` and `OUT` are as before
too (R41, R120, R151). -/
def Obligations.UwordAndUwordBFrame : Prop :=
  ∀ (i : Instr) (s t : State), exec i s = .next t →
    (∀ k, t.mem.readCell k = s.mem.readCell k) ∧ (∀ a, t.mem.readWord a = s.mem.readWord a) ∧
    t.init = s.init ∧ t.draws = s.draws ∧ t.hostOps = s.hostOps.tail ∧
    (t.fault = none ∨ (t.pc = s.pc ∧ t.out = s.out))

/-- What `exec` answers when it gives no next state. That it REFUSES where the host requests no STEP and no TICK is
the model's choice (notes/assumptions/11.md); that it is stuck once `FAULT` is set is R151. -/
def Obligations.ExecStopsOnlyWhenFaultedOrNotRequested : Prop :=
  ∀ (i : Instr) (s : State),
    (∀ r, exec i s = .fault r ↔ ∃ f, s.fault = some f ∧ r = .stuck f) ∧
    (∀ r, exec i s = .refused r ↔ s.fault = none ∧ conditionActive s = none ∧ r = .noStepRequested)

/-- A step runs the decoded instruction: past STEP's entry conditions, the word at `PC` decodes to a well-formed
record and `step` is `exec` of it at the same state, with nothing added. -/
def Obligations.StepRunsTheDecodedInstruction : Prop :=
  ∀ (s : State) (c : Bool) (i : Instr), s.fault = none → conditionActive s = some c → s.init = true →
    s.pc.toNat < 255 → decode .layoutA (s.mem.readWord s.pc.toNat) = i → i.wellFormed = true ∧ step s = exec i s

/-! ### STEP and TICK -/

/-- R120, the whole of STEP(c): no transition once faulted; `F_UNINIT`, then `F_PC_RANGE`; else the fetched word's
record goes to `OUT` and to the host, and `PC` to its jump or to `(PC + 1) mod 255`; nothing else of the core. -/
def Obligations.StepOperation : Prop :=
  ∀ (cfg : Config) (s : State) (c : Bool) (q : List HostOp), s.hostOps = .step c :: q →
    let i := decode cfg.selLayout (s.mem.readWord s.pc.toNat)
    (∀ r, s.fault = some r → stepWith cfg s = .fault (.stuck r)) ∧
    (s.fault = none → stepWith cfg s = .next
      (if s.init = false then { s with fault := some (.uninit .step), hostOps := q, reply := .nothing }
       else if 255 ≤ s.pc.toNat then { s with fault := some (.pcRange s.pc), hostOps := q, reply := .nothing }
       else { s with
        pc := if c then jumpOf i else BitVec.ofNat 8 ((s.pc.toNat + 1) % 255)
        out := i, hostOps := q, reply := .instr i }))

/-- R128: TICK(in) is STEP of the condition EVAL makes of `OUT`'s invert and selector and the inputs; where it
completes, the host is given the outputs of the new `OUT`. -/
def Obligations.TickOperation : Prop :=
  ∀ (cfg : Config) (s : State) (inp : Inputs) (q : List HostOp), s.hostOps = .tick inp :: q →
    let asStep := { s with hostOps := .step (evaluate (invPort s.out) (selPort s.out) inp) :: q }
    (∀ r, stepWith cfg asStep = .fault r → stepWith cfg s = .fault r) ∧
    (∀ t, stepWith cfg asStep = .next t → stepWith cfg s = .next
      { t with reply := if t.fault = none then .outputs (outputsOf t.out) else .nothing })

/-- R124: with the condition false the new `PC` is `(PC + 1) mod 255`, whatever stands in `MEM`; from 254 it is 0. -/
def Obligations.NotTakenAdvancesModulo255 : Prop :=
  ∀ (cfg : Config) (s : State) (m : Memory), s.fault = none → conditionActive s = some false → s.init = true →
    s.pc.toNat < 255 →
    ∃ t, stepWith cfg { s with mem := m } = .next t ∧ t.pc.toNat = (s.pc.toNat + 1) % 255 ∧
      (s.pc = 254 → t.pc = 0) ∧ t.pc ≠ 255

/-- R123: with the condition true the new `PC` is bits 7..0 of the fetched word, whatever its other bits are, 255
included. -/
def Obligations.TakenGoesToTheFetchedJump : Prop :=
  ∀ (cfg : Config) (s : State), s.fault = none → conditionActive s = some true → s.init = true →
    s.pc.toNat < 255 →
    ∃ t, stepWith cfg s = .next t ∧ t.fault = none ∧ t.pc.toNat = (s.mem.readWord s.pc.toNat).toNat % 256

/-- R127: a taken branch whose word has `jump = 255` completes with `PC = 255` and returns its record; the next
STEP or TICK raises `F_PC_RANGE(255)` and writes nothing else of the core; no STEP reaches 255 by incrementing. -/
def Obligations.BranchTo255FaultsAtTheNextStep : Prop :=
  (∀ (cfg : Config) (s : State), s.fault = none → conditionActive s = some true → s.init = true →
    s.pc.toNat < 255 → (s.mem.readWord s.pc.toNat).toNat % 256 = 255 →
    ∃ t, stepWith cfg s = .next t ∧ t.fault = none ∧ t.pc = 255 ∧
      t.out = decode cfg.selLayout (s.mem.readWord s.pc.toNat) ∧
      ∀ c, conditionActive t = some c → stepWith cfg t = .next
        { t with fault := some (.pcRange 255), hostOps := t.hostOps.tail, reply := .nothing }) ∧
  ∀ (cfg : Config) (s t : State), conditionActive s = some false → stepWith cfg s = .next t → t.fault = none →
    t.pc ≠ 255

/-- R126: what a STEP does to `PC` depends on the fetched word only through its jump field. -/
def Obligations.NewPcIgnoresSelectorInvertAndFlags : Prop :=
  ∀ (cfg : Config) (s t t' : State) (m : Memory),
    (s.mem.readWord s.pc.toNat).extractLsb' 0 8 = (m.readWord s.pc.toNat).extractLsb' 0 8 →
    conditionActive s ≠ none → stepWith cfg s = .next t → stepWith cfg { s with mem := m } = .next t' →
    t'.pc = t.pc

/-- R130: after a STEP or TICK that completes, the ports `up`, `down`, `door`, `clr` are bits 8 to 11 of the word
fetched; no other operation but INIT, which writes `OUT` (R170), changes them. -/
def Obligations.OutputPortsComeFromOut : Prop :=
  ∀ (cfg : Config) (s t : State), stepWith cfg s = .next t →
    (conditionActive s ≠ none → t.fault = none → t.outputPorts =
      ⟨(s.mem.readWord s.pc.toNat).getLsbD 8, (s.mem.readWord s.pc.toNat).getLsbD 9,
        (s.mem.readWord s.pc.toNat).getLsbD 10, (s.mem.readWord s.pc.toNat).getLsbD 11⟩) ∧
    (conditionActive s = none → (∀ q, s.hostOps ≠ .init :: q) → t.outputPorts = s.outputPorts)

/-! ### The condition multiplexer -/

/-- R100: the selector table, every entry for every input sample and invert. -/
def Obligations.EvaluateFollowsTheSelectorTable : Prop :=
  ∀ (inv : Bool) (inp : Inputs),
    evaluate inv 0 inp = xor (inp.callBelow || inp.callSame || inp.callAbove) inv ∧
    evaluate inv 1 inp = xor inp.callBelow inv ∧
    evaluate inv 2 inp = xor inp.callSame inv ∧
    evaluate inv 3 inp = xor inp.callAbove inv ∧
    evaluate inv 4 inp = xor inp.doorClosed inv ∧
    evaluate inv 5 inp = xor inp.doorOpen inv ∧
    evaluate inv 6 inp = inv ∧
    evaluate inv 7 inp = inv

/-- R101: EVAL at a port wider than 3 bits, in every case, and that neither STEP nor TICK raises `F_SEL_RANGE`.
The draw is a free value: the statement says that it is the answer, not what it is. -/
def Obligations.EvalOperationAtAWidePort : Prop :=
  (∀ (cfg : Config) (s : State) (inv : Bool) (sel : Nat) (inp : Inputs) (q : List HostOp),
    s.fault = none → s.hostOps = .eval inv sel inp :: q →
    stepWith cfg s = .next
      (if sel ≤ 7 then { s with hostOps := q, reply := .cond (evaluate inv (BitVec.ofNat 3 sel) inp) }
       else if cfg.checks = true then
        { s with fault := some (.selRange sel), hostOps := q, reply := .nothing }
       else { s with hostOps := q, reply := .cond (Config.selDraw s.draws), draws := s.draws + 1 })) ∧
  ∀ (cfg : Config) (s t : State) (sel : Nat), conditionActive s ≠ none → stepWith cfg s = .next t →
    t.fault ≠ some (.selRange sel)

/-- R72: under layout A the condition a word selects is a function of the three call inputs alone, its selector
is 0 to 3, and it is constant for no word. -/
def Obligations.LayoutAConditionsReadTheCallsOnly : Prop :=
  ∀ w : Word,
    let cond := fun inp => evaluate (invPort (decode .layoutA w)) (selPort (decode .layoutA w)) inp
    (selPort (decode .layoutA w)).toNat ≤ 3 ∧
    (∀ inp inp' : Inputs, inp.callBelow = inp'.callBelow → inp.callSame = inp'.callSame →
      inp.callAbove = inp'.callAbove → cond inp = cond inp') ∧
    (∃ inp, cond inp = true) ∧ ∃ inp, cond inp = false

/-- R71: only layout B encodes selectors 6 and 7, and there each selects false, so the condition is the
invert. -/
def Obligations.SelectorsSixAndSevenAreConstantFalse : Prop :=
  (∀ w : Word, selPort (decode .layoutA w) ≠ 6 ∧ selPort (decode .layoutA w) ≠ 7) ∧
  (∃ w : Word, selPort (decode .layoutB w) = 6) ∧ (∃ w : Word, selPort (decode .layoutB w) = 7) ∧
  ∀ (w : Word) (inp : Inputs), selPort (decode .layoutB w) = 6 ∨ selPort (decode .layoutB w) = 7 →
    evaluate (invPort (decode .layoutB w)) (selPort (decode .layoutB w)) inp = w.getLsbD 15

/-! ### INIT, LOAD and memory -/

/-- R170: INIT in any state that is not faulted, and in a faulted one (R172 with it: the same at every operation
boundary). -/
def Obligations.InitOperation : Prop :=
  ∀ (cfg : Config) (s : State) (q : List HostOp), s.hostOps = .init :: q →
    (∀ r, s.fault = some r → stepWith cfg s = .fault (.stuck r)) ∧
    (s.fault = none → ∃ t, stepWith cfg s = .next t ∧ t.pc = 0 ∧ (∀ a, t.mem.readWord a = 0x0000) ∧
      t.out = decode cfg.selLayout 0x0000 ∧ t.init = true ∧ t.fault = none ∧ t.hostOps = q)

/-- R43: LOAD in every case. It writes `MEM[addr]` only; every other cell and word reads as before. -/
def Obligations.LoadOperation : Prop :=
  ∀ (cfg : Config) (s : State) (addr : Addr) (w : Word) (q : List HostOp),
    s.mem.wf → s.hostOps = .load addr w :: q →
    (∀ r, s.fault = some r → stepWith cfg s = .fault (.stuck r)) ∧
    (s.fault = none → s.init = false → stepWith cfg s = .next
      { s with fault := some (.uninit .load), hostOps := q, reply := .nothing }) ∧
    (s.fault = none → s.init = true → 255 ≤ addr.toNat → stepWith cfg s = .next
      { s with fault := some (.loadRange addr), hostOps := q, reply := .nothing }) ∧
    (s.fault = none → s.init = true → addr.toNat < 255 →
      ∃ m, stepWith cfg s = .next { s with mem := m, hostOps := q, reply := .nothing } ∧
        m.readWord addr.toNat = w ∧ (∀ a, a ≠ addr.toNat → m.readWord a = s.mem.readWord a) ∧
        ∀ k, k ≠ 2 * addr.toNat → k ≠ 2 * addr.toNat + 1 → m.readCell k = s.mem.readCell k)

/-- R50: a sequence of LOADs, each at an address, leaves at every address the word the last LOAD there wrote,
or the word before, and nothing else of the core changed. -/
def Obligations.LoadsLeaveTheLastWordWritten : Prop :=
  ∀ (cfg : Config) (loads : List (Addr × Word)) (s : State) (q : List HostOp),
    s.mem.wf → s.fault = none → s.init = true → (∀ p ∈ loads, p.1.toNat < 255) →
    s.hostOps = loads.map (fun p => .load p.1 p.2) ++ q →
    ∃ t, (coreWith cfg).run loads.length s = .next t ∧ t.hostOps = q ∧ t.pc = s.pc ∧ t.out = s.out ∧
      t.init = true ∧ t.fault = none ∧
      ∀ a, t.mem.readWord a = (lastLoaded loads a).getD (s.mem.readWord a)

/-- R178: a LOAD at the address the next TICK fetches is seen by that fetch; the tick's condition still comes from
the `OUT` before the LOAD. -/
def Obligations.LoadIsSeenByTheNextFetch : Prop :=
  ∀ (cfg : Config) (s : State) (w : Word) (inp : Inputs) (q : List HostOp),
    s.mem.wf → s.fault = none → s.init = true → s.pc.toNat < 255 →
    s.hostOps = .load s.pc w :: .tick inp :: q →
    ∃ t, (coreWith cfg).run 2 s = .next t ∧ t.fault = none ∧ t.hostOps = q ∧ t.out = decode cfg.selLayout w ∧
      t.pc = if evaluate (invPort s.out) (selPort s.out) inp then jumpOf (decode cfg.selLayout w)
        else BitVec.ofNat 8 ((s.pc.toNat + 1) % 255)

/-- Power-on (R26, R171): whatever the unspecified values are, STEP, TICK and LOAD fault with `F_UNINIT`, and INIT
leaves the state after reset: this hardware's, and that of a core built with any parameters (R4). -/
def Obligations.PowerOnNeedsInit : Prop :=
  (∀ (cfg : Config) (op : HostOp), (∃ c, op = .step c) ∨ (∃ inp, op = .tick inp) →
    ∃ t, stepWith cfg { State.powerOn cfg with hostOps := [op] } = .next t ∧ t.fault = some (.uninit .step)) ∧
  (∀ (cfg : Config) (addr : Addr) (w : Word),
    ∃ t, stepWith cfg { State.powerOn cfg with hostOps := [.load addr w] } = .next t ∧
      t.fault = some (.uninit .load)) ∧
  step { State.powerOn Config.thisHardware with hostOps := [.init] } = .next State.reset ∧
  ∀ cfg : Config, stepWith cfg { State.powerOn cfg with hostOps := [.init] } = .next (coreWith cfg).reset

/-- R176: INIT, one LOAD of word 0, one TICK: the first condition is "any call pending", so the tick branches to
the word's jump if a call is pending and advances to 1 otherwise. -/
def Obligations.FirstTickBranchesOnAnyCall : Prop :=
  ∀ (cfg : Config) (s : State) (w : Word) (inp : Inputs) (q : List HostOp), s.fault = none →
    s.hostOps = .init :: .load 0 w :: .tick inp :: q →
    ∃ t, (coreWith cfg).run 3 s = .next t ∧ t.fault = none ∧ t.out = decode cfg.selLayout w ∧
      t.pc = if inp.callBelow || inp.callSame || inp.callAbove then w.extractLsb' 0 8 else 1

/-! ### Faults -/

/-- R151: the transition that raises a fault writes nothing else of the core, and from then on every step is
stuck, whatever operation the host issues. That DECODE, ENCODE, EVAL and an idle core are stuck too is
notes/assumptions/7.md; that a fault of ENCODE is such a fault, where R83 and R151 differ, is
notes/assumptions/8.md. -/
def Obligations.FaultsArePreciseAndTerminal : Prop :=
  ∀ (cfg : Config) (s t : State) (r : FaultRecord), stepWith cfg s = .next t → t.fault = some r →
    t.pc = s.pc ∧ t.mem = s.mem ∧ t.out = s.out ∧ t.init = s.init ∧
    ∀ (cfg' : Config) (ops : List HostOp) (k : Nat),
      (coreWith cfg').run (k + 1) { t with hostOps := ops } = .fault (.stuck r)

/-- R150: the five causes with their codes; each is raised by its operation under its condition, with its info, and by nothing
else (R153's order with it). -/
def Obligations.FaultCausesAreTheFiveOfTheTable : Prop :=
  (∀ (op : FaultOp) (p a : Addr) (f : InstrField) (v n : Nat), faultCode (.uninit op) = 1 ∧
    faultCode (.pcRange p) = 2 ∧ faultCode (.loadRange a) = 3 ∧ faultCode (.encWidth f v) = 4 ∧
    faultCode (.selRange n) = 5) ∧
  ∀ (cfg : Config) (s t : State), s.fault = none → stepWith cfg s = .next t →
    (t.fault = some (.uninit .step) ↔ conditionActive s ≠ none ∧ s.init = false) ∧
    (t.fault = some (.uninit .load) ↔ (∃ a w q, s.hostOps = .load a w :: q) ∧ s.init = false) ∧
    (∀ p, t.fault = some (.pcRange p) ↔
      conditionActive s ≠ none ∧ s.init = true ∧ s.pc = 255 ∧ p = 255) ∧
    (∀ a, t.fault = some (.loadRange a) ↔
      (∃ w q, s.hostOps = .load a w :: q) ∧ s.init = true ∧ a = 255) ∧
    (∀ f v, t.fault = some (.encWidth f v) ↔ cfg.checks = true ∧
      ∃ i q, s.hostOps = .encode i :: q ∧ encodeRaw cfg i = .error (f, v)) ∧
    (∀ n, t.fault = some (.selRange n) ↔ cfg.checks = true ∧ 7 < n ∧
      ∃ inv inp q, s.hostOps = .eval inv n inp :: q)

/-- `CHECKS` decides ENCODE and EVAL only: every other operation, the `PC` and LOAD range checks included, makes
the same transition under both values (R44, R121, R160). -/
def Obligations.ChecksDecideEncodeAndEvalOnly : Prop :=
  ∀ (l : SelLayout) (s : State),
    (∀ i q, s.hostOps ≠ .encode i :: q) → (∀ inv sel inp q, s.hostOps ≠ .eval inv sel inp :: q) →
    stepWith ⟨l, true⟩ s = stepWith ⟨l, false⟩ s

/-- Every state that is not faulted has a transition, and a faulted one is stuck: no step is refused (R6,
R151). -/
def Obligations.EveryStepAnswersUnlessFaulted : Prop :=
  ∀ (cfg : Config) (s : State),
    (s.fault = none → ∃ t, stepWith cfg s = .next t) ∧
    (∀ r, s.fault = some r → stepWith cfg s = .fault (.stuck r)) ∧
    ∀ r, stepWith cfg s ≠ .refused r

/-! ### The whole machine -/

/-- `PC` is written by INIT, with 0, and by STEP, with the fetched jump or `(PC + 1) mod 255`, and by nothing else
(R22). -/
def Obligations.OnlyInitAndStepWritePc : Prop :=
  ∀ (cfg : Config) (s t : State), stepWith cfg s = .next t →
    t.pc = s.pc ∨ (t.pc = 0 ∧ ∃ q, s.hostOps = .init :: q) ∨
    ∃ c, conditionActive s = some c ∧
      t.pc = if c then (s.mem.readWord s.pc.toNat).extractLsb' 0 8
        else BitVec.ofNat 8 ((s.pc.toNat + 1) % 255)

/-- Only INIT and LOAD write `MEM`; under every other operation, every instruction among them, each cell and each
word reads as before (R24, R41). -/
def Obligations.OnlyInitAndLoadWriteMem : Prop :=
  ∀ (cfg : Config) (s t : State), stepWith cfg s = .next t →
    (∀ q, s.hostOps ≠ .init :: q) → (∀ a w q, s.hostOps ≠ .load a w :: q) →
    (∀ k, t.mem.readCell k = s.mem.readCell k) ∧ ∀ a, t.mem.readWord a = s.mem.readWord a

/-- `INIT` is set by INIT and cleared by nothing; `OUT` is written by INIT and STEP only (R25, R26). -/
def Obligations.OnlyInitSetsInitAndNothingClearsIt : Prop :=
  ∀ (cfg : Config) (s t : State), stepWith cfg s = .next t →
    (t.init = true ↔ s.init = true ∨ ∃ q, s.hostOps = .init :: q) ∧
    ((∀ q, s.hostOps ≠ .init :: q) → conditionActive s = none → t.out = s.out)

/-- DECODE, ENCODE and EVAL change no `PC`, `MEM`, `OUT` or `INIT`, and where they raise no fault they answer the host
with the value of the function (R7, R80, R82, R100). -/
def Obligations.PureFunctionsChangeNoCoreState : Prop :=
  ∀ (cfg : Config) (s t : State) (q : List HostOp), stepWith cfg s = .next t →
    (∀ w, s.hostOps = .decode w :: q →
      t = { s with hostOps := q, reply := .instr (decode cfg.selLayout w) }) ∧
    (∀ i, s.hostOps = .encode i :: q →
      t.pc = s.pc ∧ t.mem = s.mem ∧ t.out = s.out ∧ t.init = s.init ∧
      ∀ w, encodeRaw cfg i = .ok w → t = { s with hostOps := q, reply := .word w }) ∧
    (∀ inv sel inp, s.hostOps = .eval inv sel inp :: q →
      t.pc = s.pc ∧ t.mem = s.mem ∧ t.out = s.out ∧ t.init = s.init)

/-- Operations are performed one at a time, in the order the host issues them (R7, R50). Where the core is not
faulted, the operation performed is the oldest: the transition is that operation's; it removes exactly that one
from the queue; and the operations after it have no influence on anything else. With none left the core holds its
whole state (R161). That the operations stand in the state is the model's choice (notes/assumptions/2.md). -/
def Obligations.EachTransitionPerformsTheOldestOperation : Prop :=
  (∀ (cfg : Config) (s : State) (op : HostOp) (q : List HostOp), s.fault = none → s.hostOps = op :: q →
    stepWith cfg s = match op with
      | .init => performInit cfg s
      | .load addr w => performLoad addr w s
      | .step _ => stepInstr (decode cfg.selLayout (s.mem.readWord s.pc.toNat)) s
      | .tick _ => stepInstr (decode cfg.selLayout (s.mem.readWord s.pc.toNat)) s
      | .decode w => performDecode cfg w s
      | .encode i => performEncode cfg i s
      | .eval inv sel inp => performEval cfg inv sel inp s) ∧
  (∀ (cfg : Config) (s t : State), stepWith cfg s = .next t →
    t.hostOps = s.hostOps.tail ∧ (s.hostOps = [] → t = s)) ∧
  ∀ (cfg : Config) (s t : State) (op : HostOp) (q q' : List HostOp), s.hostOps = op :: q →
    stepWith cfg s = .next t → stepWith cfg { s with hostOps := op :: q' } = .next { t with hostOps := q' }

/-- The invariant holds after reset, of this hardware and of a core built with any parameters. -/
def Obligations.StateInvHoldsAfterReset : Prop :=
  State.reset.Inv Config.thisHardware ∧ ∀ cfg : Config, (State.resetWith cfg).Inv cfg

/-- The invariant is kept by every step, of this hardware and of a core built with any parameters: `MEM` stays in
its canonical form inside the 255 words (R40), and `OUT` stays a record of the layout (R25, R64). -/
def Obligations.EveryStepKeepsTheStateInv : Prop :=
  (∀ s t : State, s.Inv Config.thisHardware → step s = .next t → t.Inv Config.thisHardware) ∧
  ∀ (cfg : Config) (s t : State), s.Inv cfg → stepWith cfg s = .next t → t.Inv cfg

/-- A run in which loader and host keep their contracts faults at no step: "No expected runtime failures exist in
this core" (R45, R134, R150, R177). -/
def Obligations.SafeRunsNeverFault : Prop :=
  ∀ (cfg : Config) (s : State), s.mem.wf → s.Safe cfg →
    ∀ k, ∃ t, (coreWith cfg).run k s = .next t ∧ t.mem.wf ∧ t.Safe cfg

/-- R175: a run of ticks of any length follows the recurrence, `PC` and `OUT` at every tick: the condition of tick k
comes from the record of tick k - 1 and the inputs of tick k. The premise is that no tick of the run starts at
`PC = 255`, where the recurrence ends in `F_PC_RANGE` (R177). The second clause is a run from its boot (R174): INIT,
LOADs, then the ticks; it follows the recurrence from its start, `PC = 0` and `OUT = ZERO_INSTR`, over the words
loaded, the words not loaded being `0x0000`. -/
def Obligations.TickRunsFollowTheRecurrence : Prop :=
  (∀ (cfg : Config) (ins : List Inputs) (s : State) (q : List HostOp), s.fault = none → s.init = true →
    (∀ k < ins.length, (recurrenceRun cfg s.mem (s.pc, s.out) (ins.take k)).1.toNat < 255) →
    s.hostOps = ins.map (fun inp => .tick inp) ++ q →
    ∃ t, (coreWith cfg).run ins.length s = .next t ∧ t.fault = none ∧ t.mem = s.mem ∧ t.hostOps = q ∧
      (t.pc, t.out) = recurrenceRun cfg s.mem (s.pc, s.out) ins) ∧
  ∀ (cfg : Config) (loads : List (Addr × Word)) (ins : List Inputs) (s : State) (q : List HostOp) (m : Memory),
    s.fault = none → (∀ p ∈ loads, p.1.toNat < 255) →
    (∀ a, m.readWord a = (lastLoaded loads a).getD 0x0000) →
    (∀ k < ins.length, (recurrenceRun cfg m (0, decode cfg.selLayout 0x0000) (ins.take k)).1.toNat < 255) →
    s.hostOps = .init :: (loads.map (fun p => .load p.1 p.2) ++ (ins.map (fun inp => .tick inp) ++ q)) →
    ∃ t, (coreWith cfg).run (loads.length + ins.length + 1) s = .next t ∧ t.fault = none ∧ t.hostOps = q ∧
      (t.pc, t.out) = recurrenceRun cfg m (0, decode cfg.selLayout 0x0000) ins

/-! ### The interface to the host's checks, and the notation -/

/-- `withFetchWord` does what it is for, from every state: the very next step runs the instruction
`decodeTableWord` reads (the model's own interface, notes/assumptions/3.md). -/
def Obligations.FetchWordIsTheNextInstruction : Prop :=
  ∀ (s : State) (nbits w : Nat) (i : Instr), s.mem.wf → decodeTableWord nbits w = some i →
    step (s.withFetchWord nbits w) = exec i (s.withFetchWord nbits w) ∧
    ∃ t, exec i (s.withFetchWord nbits w) = .next t ∧ t.out = i ∧ t.fault = none

/-- R74: which lines the notation allows, and the word each stands for. Every line with `sel=` as a number, as one of
the eight names (0 to 7 in the order of R74), or absent (0), with `jump=` written or absent (0); `ZERO`; and the
spellings `cond=TRUE` and `cond=FALSE` under layout B. The errors a line outside the notation gives, and that no
line has `INV` after `cond=`, are the model's own (notes/assumptions/14.md). -/
def Obligations.AssemblerLinesStandForTheirWords : Prop :=
  (∀ (l : SelLayout) (jump : Option Nat) (operand : Option AsmSel) (sel : Nat) (up down door clr inv : Bool),
    (operand = some (.number sel) ∨ (operand = none ∧ sel = 0) ∨ ∃ name, operand = some (.name name) ∧
      (name, sel) ∈ [(Selector.any, 0), (.below, 1), (.same, 2), (.above, 3), (.closed, 4), (.opened, 5),
        (.rsvd, 6), (.never, 7)]) →
    (jump.getD 0 ≤ 255 ∧ sel < (if l = .layoutA then 4 else 8) →
      ∃ i, assemble l (.uword jump up down door clr (.select operand inv)) = .ok i ∧ i.ofLayout l = true ∧
        encodeRaw ⟨l, true⟩ ⟨jump.getD 0, up.toNat, down.toNat, door.toNat, clr.toNat, sel, inv.toNat⟩ =
          .ok (encode i)) ∧
    (¬ (jump.getD 0 ≤ 255 ∧ sel < (if l = .layoutA then 4 else 8)) →
      ∃ e, assemble l (.uword jump up down door clr (.select operand inv)) = .error e)) ∧
  (∀ l : SelLayout, ∃ i, assemble l .zero = .ok i ∧ encode i = 0x0000 ∧
    assemble l (.uword (some 0) false false false false (.select (some (.name .any)) false)) = .ok i) ∧
  (∀ (jump : Option Nat) (up down door clr : Bool),
    assemble .layoutB (.uword jump up down door clr .condTrue) =
      assemble .layoutB (.uword jump up down door clr (.select (some (.name .never)) true)) ∧
    assemble .layoutB (.uword jump up down door clr .condFalse) =
      assemble .layoutB (.uword jump up down door clr (.select (some (.name .never)) false)) ∧
    (∃ e, assemble .layoutA (.uword jump up down door clr .condTrue) = .error e) ∧
    ∃ e, assemble .layoutA (.uword jump up down door clr .condFalse) = .error e)

/-- R74: the text of every line of the notation is read back as that line, and the texts are the spec's: each
keyword, each selector name and each spelling in the words R74 uses. -/
def Obligations.AssemblerTextReadsBackAsItsLine : Prop :=
  (∀ line : AsmLine, asmParse (asmText line) = some line) ∧
  asmText .zero = "ZERO" ∧
  asmText (.uword (some 0) false false true false (.select (some (.name .any)) true)) =
    "UWORD jump=0 DOOR sel=ANY INV" ∧
  asmText (.uword (some 255) true true true true (.select (some (.number 3)) false)) =
    "UWORD jump=255 UP DOWN DOOR CLR sel=3" ∧
  asmText (.uword none false false false false (.select none true)) = "UWORD INV" ∧
  asmText (.uword none false false false false .condTrue) = "UWORD cond=TRUE" ∧
  asmText (.uword none false false false false .condFalse) = "UWORD cond=FALSE" ∧
  ∀ p ∈ [(Selector.any, "ANY"), (.below, "BELOW"), (.same, "SAME"), (.above, "ABOVE"), (.closed, "CLOSED"),
      (.opened, "OPEN"), (.rsvd, "RSVD"), (.never, "FALSE")],
    asmText (.uword none false false false false (.select (some (.name p.1)) false)) = "UWORD sel=" ++ p.2
end

