-- ==== Sys2Proof/Laws/Assembler.lean ====
section
/-! SUPPORT. What the functions that read and write the notation of spec/30_encoding.md R74 do, said once for each. -/

namespace Sys2Proof.Machine

/-- A text without spaces is one word. -/
theorem asmWords_of_no_space {w : List Char} (h : ' ' ∉ w) : asmWords w = [w] := by
  induction w with
  | nil => rfl
  | cons c cs ih =>
    simp only [List.mem_cons, not_or] at h
    simp [asmWords, ih h.2, Ne.symm h.1]

/-- A word up to the next space, then the words after the space. -/
theorem asmWords_append_space {w cs : List Char} (h : ' ' ∉ w) :
    asmWords (w ++ ' ' :: cs) = w :: asmWords cs := by
  induction w with
  | nil =>
    cases hc : asmWords cs with
    | nil => cases cs <;> simp [asmWords] at hc; split at hc <;> [skip; split at hc] <;> simp at hc
    | cons => simp [asmWords, hc]
  | cons c w ih =>
    simp only [List.mem_cons, not_or] at h
    simp [asmWords, ih h.2, Ne.symm h.1]

/-- What follows a keyword is the rest of the word. -/
theorem afterKey_append (key w : List Char) : afterKey key (key ++ w) = some w := by
  induction key with
  | nil => rfl
  | cons k ks ih => simp [afterKey, ih]

/-- No word is read after a keyword it does not begin with. -/
theorem afterKey_eq_some {key w rest : List Char} : afterKey key w = some rest ↔ w = key ++ rest := by
  induction key generalizing w with
  | nil => simp [afterKey, eq_comm]
  | cons k ks ih =>
    cases w with
    | nil => simp [afterKey]
    | cons c cs =>
      by_cases h : k = c
      · simp [afterKey, h, ih]
      · simp [afterKey, h, Ne.symm h]

/-- The decimal digits of a number are read back as that number. -/
theorem asmNumber_toDigits (n : Nat) : asmNumber (Nat.toDigits 10 n) = some n := by
  have h : ∀ c ∈ Nat.toDigits 10 n, c.isDigit = true := fun c hc =>
    Nat.isDigit_of_mem_toDigits (b := 10) (by decide) (by decide) hc
  rw [asmNumber, if_pos ⟨Nat.toDigits_ne_nil, by simpa using h⟩]
  exact congrArg some (Nat.ofDigitChars_toDigits (by decide) (by decide))

theorem toString_toList (n : Nat) : (toString n).toList = Nat.toDigits 10 n := by
  simp [toString, Nat.repr]

/-- A number's text has no space. -/
theorem space_not_mem_toDigits (n : Nat) : ' ' ∉ Nat.toDigits 10 n := fun h =>
  absurd (Nat.isDigit_of_mem_toDigits (b := 10) (by decide) (by decide) h) (by decide)

/-- An optional keyword that stands at its place. -/
theorem takeKeyword_present (k : String) (ws : List (List Char)) : takeKeyword k (k.toList :: ws) = (true, ws) := by
  simp [takeKeyword]

/-- An optional keyword that does not stand at its place. -/
theorem takeKeyword_absent {k : String} {ws : List (List Char)} (h : ws.head? ≠ some k.toList) :
    takeKeyword k ws = (false, ws) := by
  cases ws with
  | nil => rfl
  | cons w ws => simp [takeKeyword, show w ≠ k.toList by simpa using h]

/-- A selector's name is read back as that name. -/
theorem asmSelOperand_name (n : Selector) : asmSelOperand (selectorName n).toList = some (.name n) := by
  cases n <;> decide

/-- A selector's number is read back as that number; no name is a number. -/
theorem asmSelOperand_number (n : Nat) : asmSelOperand (Nat.toDigits 10 n) = some (.number n) := by
  have h : ∀ m : Selector, (selectorName m).toList ≠ Nat.toDigits 10 n := by
    intro m e
    have hd : (selectorName m).toList.all Char.isDigit = true :=
      List.all_eq_true.mpr fun c hc => Nat.isDigit_of_mem_toDigits (b := 10) (by decide) (by decide) (e ▸ hc)
    have hn : (selectorName m).toList.all Char.isDigit = false := by cases m <;> decide
    simp [hn] at hd
  simp [asmSelOperand, h, asmNumber_toDigits]

end Sys2Proof.Machine
end

