-- ==== Sys2Proof/Laws/Codec.lean ====
section
/-! SUPPORT. What DECODE, ENCODE and EVAL can answer, said once for each. -/

namespace Sys2Proof.Machine

/-- DECODE gives a record of its layout. -/
theorem decode_ofLayout (l : SelLayout) (w : Word) : (decode l w).ofLayout l = true := by
  cases l <;> simp [decode, Instr.ofLayout, Instr.layout]

theorem jumpOf_decode (l : SelLayout) (w : Word) : jumpOf (decode l w) = w.extractLsb' 0 8 := by
  cases l <;> rfl

theorem outputsOf_decode (l : SelLayout) (w : Word) :
    outputsOf (decode l w) = ⟨w.getLsbD 8, w.getLsbD 9, w.getLsbD 10, w.getLsbD 11⟩ := by
  cases l <;> rfl

/-- No field is reported exactly where all fit. -/
theorem firstTooWide_eq_none {l : SelLayout} {r : RawInstr} :
    firstTooWide (r.fields l) = none ↔ r.fits l = true := by
  cases l <;> simp only [firstTooWide, RawInstr.fields, RawInstr.fits, selWidth] <;> split_ifs <;> simp <;>
    omega

/-- ENCODE of fields that fit is the packed word. -/
theorem encodeRaw_of_fits {cfg : Config} {r : RawInstr} (h : r.fits cfg.selLayout = true) :
    encodeRaw cfg r = .ok (packMasked cfg.selLayout r) := by
  simp [encodeRaw, firstTooWide_eq_none.mpr h]

/-- ENCODE fails only under `CHECKS = on`, with the first field that does not fit. -/
theorem encodeRaw_eq_error {cfg : Config} {r : RawInstr} {bad : InstrField × Nat}
    (h : encodeRaw cfg r = .error bad) :
    cfg.checks = true ∧ firstTooWide (r.fields cfg.selLayout) = some bad := by
  unfold encodeRaw at h
  split at h <;> simp_all

/-- What EVAL at a wide port can answer. -/
theorem evaluateWide_cases (cfg : Config) (draw inv : Bool) (sel : Nat) (inp : Inputs) :
    (sel ≤ 7 ∧ evaluateWide cfg draw inv sel inp = .ok (evaluate inv (BitVec.ofNat 3 sel) inp)) ∨
      (7 < sel ∧ cfg.checks = true ∧ evaluateWide cfg draw inv sel inp = .error sel) ∨
      (7 < sel ∧ cfg.checks = false ∧ evaluateWide cfg draw inv sel inp = .ok draw) := by
  unfold evaluateWide
  by_cases h : sel ≤ 7
  · simp [h]
  · cases hc : cfg.checks <;> simp [h] <;> omega

end Sys2Proof.Machine
end

