-- ==== Sys2Proof/Laws/Memory.lean ====
section
/-! SUPPORT. The laws of `MEM`: a read after a write, and the canonical form kept by every memory operation. -/

namespace Sys2Proof.Machine

theorem Memory.readCell_eq_zero_of_not_listed {m : Memory} {a : Nat} (h : ∀ c ∈ m, c.1 ≠ a) :
    m.readCell a = 0#8 := by
  induction m with
  | nil => rfl
  | cons c m ih =>
    obtain ⟨k, b⟩ := c
    have hk : a ≠ k := fun e => h (k, b) (by simp) e.symm
    simpa [Memory.readCell, hk] using ih fun c hc => h c (by simp [hc])

/-- A cell listed before the rest is below every cell of the rest. -/
theorem Memory.head_lt {k : Nat} {b : Half} {m : Memory}
    (h : List.Pairwise (fun x y : Host.Cell => x.1 < y.1) ((k, b) :: m)) : ∀ c ∈ m, k < c.1 :=
  (List.pairwise_cons.mp h).1

/-- Reading the cell just written gives the value written. -/
theorem Memory.readCell_writeCell_same {m : Memory} (a : Nat) (b : Half)
    (h : m.Pairwise fun x y => x.1 < y.1) : (m.writeCell a b).readCell a = b := by
  induction m with
  | nil => by_cases hb : b = 0#8 <;> simp [Memory.writeCell, Memory.readCell, hb]
  | cons c m ih =>
    obtain ⟨k, d⟩ := c
    have hlt := Memory.head_lt h
    rcases lt_trichotomy a k with hak | hak | hak
    · by_cases hb : b = 0#8
      · have : Memory.readCell ((k, d) :: m) a = 0#8 := by
          refine Memory.readCell_eq_zero_of_not_listed fun c hc => ?_
          rcases List.mem_cons.mp hc with rfl | hc
          · exact Nat.ne_of_gt hak
          · have := hlt c hc; omega
        simp [Memory.writeCell, hak, hb, this]
      · simp [Memory.writeCell, Memory.readCell, hak, hb]
    · subst hak
      by_cases hb : b = 0#8
      · have : Memory.readCell m a = 0#8 :=
          Memory.readCell_eq_zero_of_not_listed fun c hc => by have := hlt c hc; omega
        simp [Memory.writeCell, hb, this]
      · simp [Memory.writeCell, Memory.readCell, hb]
    · have h1 : ¬ a < k := by omega
      have h2 : a ≠ k := by omega
      simpa [Memory.writeCell, Memory.readCell, h1, h2] using ih (List.pairwise_cons.mp h).2

/-- A write leaves every other cell alone. -/
theorem Memory.readCell_writeCell_other (m : Memory) {a a' : Nat} (b : Half) (h : a' ≠ a) :
    (m.writeCell a b).readCell a' = m.readCell a' := by
  induction m with
  | nil => by_cases hb : b = 0#8 <;> simp [Memory.writeCell, Memory.readCell, hb, h]
  | cons c m ih =>
    obtain ⟨k, d⟩ := c
    rcases lt_trichotomy a k with hak | hak | hak
    · by_cases hb : b = 0#8 <;> simp [Memory.writeCell, Memory.readCell, hak, hb, h]
    · subst hak
      by_cases hb : b = 0#8 <;> simp [Memory.writeCell, Memory.readCell, hb, h]
    · have h1 : ¬ a < k := by omega
      have h2 : a ≠ k := by omega
      simp only [Memory.writeCell, Memory.readCell, h1, h2, if_false, ih]

/-- Every cell of a memory after a write is the written one, not 0, or was there before. -/
theorem Memory.mem_writeCell {m : Memory} {a : Nat} {b : Half} {c : Host.Cell}
    (h : c ∈ m.writeCell a b) : (c = (a, b) ∧ b ≠ 0#8) ∨ c ∈ m := by
  induction m with
  | nil => by_cases hb : b = 0#8 <;> simp_all [Memory.writeCell]
  | cons x m ih =>
    obtain ⟨k, d⟩ := x
    rcases lt_trichotomy a k with hak | hak | hak
    · by_cases hb : b = 0#8 <;> simp_all [Memory.writeCell]
    · by_cases hb : b = 0#8 <;> simp_all [Memory.writeCell]
      tauto
    · have h1 : ¬ a < k := by omega
      have h2 : a ≠ k := by omega
      simp only [Memory.writeCell, h1, h2, if_false, List.mem_cons] at h
      rcases h with h | h
      · simp [h]
      · rcases ih h with h | h
        · exact .inl h
        · simp [h]

theorem Memory.pairwise_writeCell {m : Memory} (a : Nat) (b : Half)
    (h : m.Pairwise fun x y => x.1 < y.1) :
    (m.writeCell a b).Pairwise fun x y => x.1 < y.1 := by
  induction m with
  | nil => by_cases hb : b = 0#8 <;> simp [Memory.writeCell, hb]
  | cons x m ih =>
    obtain ⟨k, d⟩ := x
    have hlt := Memory.head_lt h
    have hm := (List.pairwise_cons.mp h).2
    rcases lt_trichotomy a k with hak | hak | hak
    · by_cases hb : b = 0#8
      · simpa [Memory.writeCell, hak, hb] using h
      · simp only [Memory.writeCell, hak, hb, if_true, if_false]
        refine List.pairwise_cons.mpr ⟨fun c hc => ?_, h⟩
        rcases List.mem_cons.mp hc with rfl | hc
        · exact hak
        · exact hak.trans (hlt c hc)
    · subst hak
      by_cases hb : b = 0#8
      · simpa [Memory.writeCell, hb] using hm
      · simp only [Memory.writeCell, hb, if_true, if_false, lt_irrefl]
        exact List.pairwise_cons.mpr ⟨hlt, hm⟩
    · have h1 : ¬ a < k := by omega
      have h2 : a ≠ k := by omega
      simp only [Memory.writeCell, h1, h2, if_false]
      refine List.pairwise_cons.mpr ⟨fun c hc => ?_, ih hm⟩
      rcases Memory.mem_writeCell hc with ⟨rfl, _⟩ | hc
      · exact hak
      · exact hlt c hc

theorem Memory.wf_writeCell {m : Memory} {a : Nat} (b : Half) (h : m.wf) (ha : a < 2 * memSize) :
    (m.writeCell a b).wf := by
  refine ⟨Memory.pairwise_writeCell a b h.1, fun c hc => ?_⟩
  rcases Memory.mem_writeCell hc with ⟨rfl, hb⟩ | hc
  · exact ⟨ha, hb⟩
  · exact h.2 c hc

/-- `MemWrite` at an address of the memory keeps the canonical form. -/
theorem Memory.wf_writeWord {m : Memory} {a : Nat} (w : Word) (h : m.wf) (ha : a < memSize) :
    (m.writeWord a w).wf :=
  Memory.wf_writeCell _ (Memory.wf_writeCell _ h (by omega)) (by omega)

theorem Memory.wf_cleared : Memory.cleared.wf := by decide

theorem Memory.wf_reset : State.reset.mem.wf := Memory.wf_cleared

theorem Memory.wf_ofWords (n : Nat) (f : Nat → Word) (h : n ≤ memSize) : (Memory.ofWords n f).wf := by
  induction n with
  | zero => exact Memory.wf_cleared
  | succ n ih => exact Memory.wf_writeWord _ (ih (by omega)) (by omega)

theorem word_of_halves (w : Word) : (w.extractLsb' 8 8 ++ w.extractLsb' 0 8 : BitVec (8 + 8)) = w := by
  apply BitVec.eq_of_getLsbD_eq
  intro i hi
  rw [BitVec.getLsbD_append]
  by_cases h : i < 8
  · simp [h]
  · simp [h, show i - 8 < 8 by omega, show 8 + (i - 8) = i by omega]

/-- `MemRead` of the address just written gives the word written. -/
theorem Memory.readWord_writeWord_same {m : Memory} (a : Nat) (w : Word) (h : m.wf) :
    (m.writeWord a w).readWord a = w := by
  have h1 := Memory.pairwise_writeCell (2 * a) (w.extractLsb' 0 8) h.1
  simp only [Memory.readWord, Memory.writeWord]
  rw [Memory.readCell_writeCell_same _ _ h1, Memory.readCell_writeCell_other _ _ (by omega),
    Memory.readCell_writeCell_same _ _ h.1]
  exact word_of_halves w

/-- `MemWrite` leaves every other word alone. -/
theorem Memory.readWord_writeWord_other (m : Memory) {a a' : Nat} (w : Word) (h : a' ≠ a) :
    (m.writeWord a w).readWord a' = m.readWord a' := by
  simp only [Memory.readWord, Memory.writeWord]
  repeat rw [Memory.readCell_writeCell_other _ _ (by omega)]

theorem Memory.readWord_cleared (a : Nat) : Memory.cleared.readWord a = 0 := by
  simp [Memory.readWord, Memory.cleared, Memory.readCell]

end Sys2Proof.Machine
end

