-- ==== Sys2Proof/Laws/State.lean ====
section
/-! SUPPORT. One lemma for each field of `State` under each named update. -/

namespace Sys2Proof.Machine

@[simp] theorem State.retire_pc (s : State) (r : Reply) : (s.retire r).pc = s.pc := rfl
@[simp] theorem State.retire_mem (s : State) (r : Reply) : (s.retire r).mem = s.mem := rfl
@[simp] theorem State.retire_out (s : State) (r : Reply) : (s.retire r).out = s.out := rfl
@[simp] theorem State.retire_init (s : State) (r : Reply) : (s.retire r).init = s.init := rfl
@[simp] theorem State.retire_fault (s : State) (r : Reply) : (s.retire r).fault = s.fault := rfl
@[simp] theorem State.retire_hostOps (s : State) (r : Reply) : (s.retire r).hostOps = s.hostOps.tail := rfl
@[simp] theorem State.retire_reply (s : State) (r : Reply) : (s.retire r).reply = r := rfl
@[simp] theorem State.retire_draws (s : State) (r : Reply) : (s.retire r).draws = s.draws := rfl

@[simp] theorem State.faulted_pc (s : State) (r : FaultRecord) : (s.faulted r).pc = s.pc := rfl
@[simp] theorem State.faulted_mem (s : State) (r : FaultRecord) : (s.faulted r).mem = s.mem := rfl
@[simp] theorem State.faulted_out (s : State) (r : FaultRecord) : (s.faulted r).out = s.out := rfl
@[simp] theorem State.faulted_init (s : State) (r : FaultRecord) : (s.faulted r).init = s.init := rfl
@[simp] theorem State.faulted_fault (s : State) (r : FaultRecord) : (s.faulted r).fault = some r := rfl
@[simp] theorem State.faulted_hostOps (s : State) (r : FaultRecord) : (s.faulted r).hostOps = s.hostOps.tail := rfl
@[simp] theorem State.faulted_reply (s : State) (r : FaultRecord) : (s.faulted r).reply = .nothing := rfl
@[simp] theorem State.faulted_draws (s : State) (r : FaultRecord) : (s.faulted r).draws = s.draws := rfl

@[simp] theorem State.stepped_pc (s : State) (c : Bool) (i : Instr) : (s.stepped c i).pc = nextPc c (jumpOf i) s.pc := rfl
@[simp] theorem State.stepped_mem (s : State) (c : Bool) (i : Instr) : (s.stepped c i).mem = s.mem := rfl
@[simp] theorem State.stepped_out (s : State) (c : Bool) (i : Instr) : (s.stepped c i).out = i := rfl
@[simp] theorem State.stepped_init (s : State) (c : Bool) (i : Instr) : (s.stepped c i).init = s.init := rfl
@[simp] theorem State.stepped_fault (s : State) (c : Bool) (i : Instr) : (s.stepped c i).fault = s.fault := rfl
@[simp] theorem State.stepped_hostOps (s : State) (c : Bool) (i : Instr) : (s.stepped c i).hostOps = s.hostOps.tail := rfl
@[simp] theorem State.stepped_reply (s : State) (c : Bool) (i : Instr) : (s.stepped c i).reply = stepReply s i := rfl
@[simp] theorem State.stepped_draws (s : State) (c : Bool) (i : Instr) : (s.stepped c i).draws = s.draws := rfl

@[simp] theorem State.initialised_pc (s : State) (cfg : Config) : (s.initialised cfg).pc = 0 := rfl
@[simp] theorem State.initialised_mem (s : State) (cfg : Config) : (s.initialised cfg).mem = Memory.cleared := rfl
@[simp] theorem State.initialised_out (s : State) (cfg : Config) : (s.initialised cfg).out = Instr.zero cfg.selLayout := rfl
@[simp] theorem State.initialised_init (s : State) (cfg : Config) : (s.initialised cfg).init = true := rfl
@[simp] theorem State.initialised_fault (s : State) (cfg : Config) : (s.initialised cfg).fault = s.fault := rfl
@[simp] theorem State.initialised_hostOps (s : State) (cfg : Config) : (s.initialised cfg).hostOps = s.hostOps.tail := rfl
@[simp] theorem State.initialised_reply (s : State) (cfg : Config) : (s.initialised cfg).reply = .nothing := rfl
@[simp] theorem State.initialised_draws (s : State) (cfg : Config) : (s.initialised cfg).draws = s.draws := rfl

@[simp] theorem State.loaded_pc (s : State) (a : Addr) (w : Word) : (s.loaded a w).pc = s.pc := rfl
@[simp] theorem State.loaded_mem (s : State) (a : Addr) (w : Word) : (s.loaded a w).mem = s.mem.writeWord a.toNat w := rfl
@[simp] theorem State.loaded_out (s : State) (a : Addr) (w : Word) : (s.loaded a w).out = s.out := rfl
@[simp] theorem State.loaded_init (s : State) (a : Addr) (w : Word) : (s.loaded a w).init = s.init := rfl
@[simp] theorem State.loaded_fault (s : State) (a : Addr) (w : Word) : (s.loaded a w).fault = s.fault := rfl
@[simp] theorem State.loaded_hostOps (s : State) (a : Addr) (w : Word) : (s.loaded a w).hostOps = s.hostOps.tail := rfl
@[simp] theorem State.loaded_reply (s : State) (a : Addr) (w : Word) : (s.loaded a w).reply = .nothing := rfl
@[simp] theorem State.loaded_draws (s : State) (a : Addr) (w : Word) : (s.loaded a w).draws = s.draws := rfl

@[simp] theorem State.evaluated_pc (s : State) (n : Nat) (c : Bool) : (s.evaluated n c).pc = s.pc := rfl
@[simp] theorem State.evaluated_mem (s : State) (n : Nat) (c : Bool) : (s.evaluated n c).mem = s.mem := rfl
@[simp] theorem State.evaluated_out (s : State) (n : Nat) (c : Bool) : (s.evaluated n c).out = s.out := rfl
@[simp] theorem State.evaluated_init (s : State) (n : Nat) (c : Bool) : (s.evaluated n c).init = s.init := rfl
@[simp] theorem State.evaluated_fault (s : State) (n : Nat) (c : Bool) : (s.evaluated n c).fault = s.fault := rfl
@[simp] theorem State.evaluated_hostOps (s : State) (n : Nat) (c : Bool) : (s.evaluated n c).hostOps = s.hostOps.tail := rfl
@[simp] theorem State.evaluated_reply (s : State) (n : Nat) (c : Bool) : (s.evaluated n c).reply = .cond c := rfl
@[simp] theorem State.evaluated_draws (s : State) (n : Nat) (c : Bool) : (s.evaluated n c).draws = if n ≤ 7 then s.draws else s.draws + 1 := rfl

@[simp] theorem State.withWordAtFetch_pc (s : State) (w : Word) : (s.withWordAtFetch w).pc = fetchAddr s := rfl
@[simp] theorem State.withWordAtFetch_mem (s : State) (w : Word) : (s.withWordAtFetch w).mem = s.mem.writeWord (fetchAddr s).toNat w := rfl
@[simp] theorem State.withWordAtFetch_out (s : State) (w : Word) : (s.withWordAtFetch w).out = s.out := rfl
@[simp] theorem State.withWordAtFetch_init (s : State) (w : Word) : (s.withWordAtFetch w).init = true := rfl
@[simp] theorem State.withWordAtFetch_fault (s : State) (w : Word) : (s.withWordAtFetch w).fault = none := rfl
@[simp] theorem State.withWordAtFetch_reply (s : State) (w : Word) : (s.withWordAtFetch w).reply = s.reply := rfl
@[simp] theorem State.withWordAtFetch_draws (s : State) (w : Word) : (s.withWordAtFetch w).draws = s.draws := rfl

end Sys2Proof.Machine
end

