-- ==== Sys2Proof/Laws/Ops.lean ====
section
/-! SUPPORT. One lemma for each shared operation that says once everything it can do; proofs cite these and do
not unfold the operations again. -/

namespace Sys2Proof.Machine

/-- Raising a fault always answers a next state, the faulted one. -/
theorem raise_next {r : FaultRecord} {s t : State} : raise r s = .next t ↔ t = s.faulted r := by
  simp [raise, eq_comm]

theorem nextPc_taken (jump pc : Addr) : nextPc true jump pc = jump := rfl

theorem nextPc_not_taken (jump pc : Addr) :
    nextPc false jump pc = BitVec.ofNat 8 ((pc.toNat + 1) % memSize) := rfl

/-- Where the entry lets a STEP through, it is the STEP's body. -/
theorem stepEntry_enters {s : State} {c : Bool} {body : Bool → Host.Outcome State Fault Refusal}
    (hf : s.fault = none) (hc : conditionActive s = some c) (hi : s.init = true)
    (hp : s.pc.toNat < memSize) : stepEntry s body = body c := by
  simp [stepEntry, hf, hc, hi, Nat.not_le.mpr hp]

/-- Everything STEP's entry can do where it answers a next state. -/
theorem stepEntry_next {s t : State} {body : Bool → Host.Outcome State Fault Refusal}
    (h : stepEntry s body = .next t) :
    s.fault = none ∧ ∃ c, conditionActive s = some c ∧
      ((s.init = false ∧ t = s.faulted (.uninit .step)) ∨
        (s.init = true ∧ memSize ≤ s.pc.toNat ∧ t = s.faulted (.pcRange s.pc)) ∨
        (s.init = true ∧ s.pc.toNat < memSize ∧ body c = .next t)) := by
  unfold stepEntry at h
  split at h
  · cases h
  next hf =>
    split at h
    · cases h
    next c hc =>
      refine ⟨hf, c, hc, ?_⟩
      split at h
      next hi => exact .inl ⟨hi, raise_next.mp h⟩
      next hi =>
        have hi : s.init = true := by simpa using hi
        split at h
        next hp => exact .inr (.inl ⟨hi, hp, raise_next.mp h⟩)
        next hp => exact .inr (.inr ⟨hi, Nat.lt_of_not_le hp, h⟩)

/-- Everything the STEP of a record can do where it answers a next state. -/
theorem stepInstr_next {i : Instr} {s t : State} (h : stepInstr i s = .next t) :
    s.fault = none ∧ ∃ c, conditionActive s = some c ∧
      ((s.init = false ∧ t = s.faulted (.uninit .step)) ∨
        (s.init = true ∧ memSize ≤ s.pc.toNat ∧ t = s.faulted (.pcRange s.pc)) ∨
        (s.init = true ∧ s.pc.toNat < memSize ∧ t = s.stepped c i)) := by
  obtain ⟨hf, c, hc, h⟩ := stepEntry_next h
  refine ⟨hf, c, hc, ?_⟩
  rcases h with h | h | ⟨hi, hp, h⟩
  · exact .inl h
  · exact .inr (.inl h)
  · exact .inr (.inr ⟨hi, hp, by simpa using h.symm⟩)

/-- Every arm of `exec` is one STEP of its record. -/
theorem exec_eq_stepInstr (i : Instr) (s : State) : exec i s = stepInstr i s := by
  cases i <;> rfl

/-- Everything LOAD can do. -/
theorem performLoad_next {addr : Addr} {w : Word} {s t : State} (h : performLoad addr w s = .next t) :
    (s.init = false ∧ t = s.faulted (.uninit .load)) ∨
      (s.init = true ∧ memSize ≤ addr.toNat ∧ t = s.faulted (.loadRange addr)) ∨
      (s.init = true ∧ addr.toNat < memSize ∧ t = s.loaded addr w) := by
  unfold performLoad at h
  split at h
  next hi => exact .inl ⟨hi, raise_next.mp h⟩
  next hi =>
    have hi : s.init = true := by simpa using hi
    split at h
    next hp => exact .inr (.inl ⟨hi, hp, raise_next.mp h⟩)
    next hp => exact .inr (.inr ⟨hi, Nat.lt_of_not_le hp, by simpa using h.symm⟩)

/-- Everything ENCODE can do as the host calls it. -/
theorem performEncode_next {cfg : Config} {i : RawInstr} {s t : State}
    (h : performEncode cfg i s = .next t) :
    (∃ w, encodeRaw cfg i = .ok w ∧ t = s.retire (.word w)) ∨
      ∃ f v, encodeRaw cfg i = .error (f, v) ∧ t = s.faulted (.encWidth f v) := by
  unfold performEncode at h
  split at h
  next w hw => exact .inl ⟨w, hw, by simpa using h.symm⟩
  next f v hw => exact .inr ⟨f, v, hw, raise_next.mp h⟩

/-- Everything EVAL can do as the host calls it. -/
theorem performEval_next {cfg : Config} {inv : Bool} {sel : Nat} {inp : Inputs} {s t : State}
    (h : performEval cfg inv sel inp s = .next t) :
    (∃ c, evaluateWide cfg (Config.selDraw s.draws) inv sel inp = .ok c ∧ t = s.evaluated sel c) ∨
      (7 < sel ∧ cfg.checks = true ∧ t = s.faulted (.selRange sel)) := by
  unfold performEval at h
  split at h
  next c hc => exact .inl ⟨c, hc, by simpa using h.symm⟩
  next bad hc =>
    refine .inr ?_
    unfold evaluateWide at hc
    split at hc
    · cases hc
    next hs =>
      split at hc
      next hk =>
        simp only [Except.error.injEq] at hc
        subst hc
        exact ⟨by omega, hk, raise_next.mp h⟩
      · cases hc

/-- Once `FAULT` is set no operation is enabled. -/
theorem stepWith_stuck {s : State} {r : FaultRecord} (cfg : Config) (h : s.fault = some r) :
    stepWith cfg s = .fault (.stuck r) := by
  simp [stepWith, perform, h]

/-- What the STEP or TICK the host requests does: the STEP of the record fetched at `PC`. -/
theorem stepWith_requested {s : State} {c : Bool} (cfg : Config) (hf : s.fault = none)
    (hc : conditionActive s = some c) : stepWith cfg s = stepInstr (fetchInstr cfg s) s := by
  have inner : stepEntry s (fun _ => exec (fetchInstr cfg s) s) = stepInstr (fetchInstr cfg s) s := by
    by_cases hi : s.init = true
    · by_cases hp : s.pc.toNat < memSize
      · rw [stepEntry_enters hf hc hi hp, exec_eq_stepInstr]
      · simp [stepEntry, stepInstr, hf, hc, hi, Nat.le_of_not_lt hp]
    · simp [stepEntry, stepInstr, hf, hc, Bool.eq_false_iff.mpr hi]
  unfold conditionActive at hc
  unfold stepWith perform
  rw [hf]
  dsimp only
  split at hc
  next hq => rw [hq]; exact inner
  next hq => rw [hq]; exact inner
  · cases hc

/-- Everything one transition can do where it answers a next state, one case for each operation the host may
issue next. -/
theorem stepWith_next {cfg : Config} {s t : State} (h : stepWith cfg s = .next t) :
    s.fault = none ∧
      ((s.hostOps = [] ∧ t = s) ∨
        (∃ q, s.hostOps = .init :: q ∧ t = s.initialised cfg) ∨
        (∃ a w q, s.hostOps = .load a w :: q ∧ performLoad a w s = .next t) ∨
        (∃ c, conditionActive s = some c ∧ stepInstr (fetchInstr cfg s) s = .next t) ∨
        (∃ w q, s.hostOps = .decode w :: q ∧ t = s.retire (.instr (decode cfg.selLayout w))) ∨
        (∃ i q, s.hostOps = .encode i :: q ∧ performEncode cfg i s = .next t) ∨
        ∃ inv sel inp q, s.hostOps = .eval inv sel inp :: q ∧ performEval cfg inv sel inp s = .next t) := by
  cases hf : s.fault with
  | some r => rw [stepWith_stuck cfg hf] at h; cases h
  | none =>
    refine ⟨rfl, ?_⟩
    by_cases hc : ∃ c, conditionActive s = some c
    · obtain ⟨c, hc⟩ := hc
      rw [stepWith_requested cfg hf hc] at h
      exact .inr (.inr (.inr (.inl ⟨c, hc, h⟩)))
    · unfold stepWith perform at h
      rw [hf] at h
      dsimp only at h
      split at h
      next hq => exact .inl ⟨hq, by simpa using h.symm⟩
      next q hq => exact .inr (.inl ⟨q, hq, by simpa [performInit] using h.symm⟩)
      next a w q hq => exact .inr (.inr (.inl ⟨a, w, q, hq, h⟩))
      next c q hq => exact (hc ⟨c, by simp [conditionActive, hq]⟩).elim
      next inp q hq =>
        exact (hc ⟨evaluate (invPort s.out) (selPort s.out) inp, by simp [conditionActive, hq]⟩).elim
      next w q hq =>
        exact .inr (.inr (.inr (.inr (.inl ⟨w, q, hq, by simpa [performDecode] using h.symm⟩))))
      next i q hq => exact .inr (.inr (.inr (.inr (.inr (.inl ⟨i, q, hq, h⟩)))))
      next inv sel inp q hq =>
        exact .inr (.inr (.inr (.inr (.inr (.inr ⟨inv, sel, inp, q, hq, h⟩)))))

end Sys2Proof.Machine
end

