-- ==== Sys2Proof/Laws/PerInstr.lean ====
section
/-! SUPPORT. Facts about every instruction as it is written, one lemma for each constructor of `Instr`. -/

namespace Sys2Proof.Laws

/-- The fields of a record, as naturals, fit the widths of its layout (R12, R62, R63). -/
def FieldsFit.Statement (i : Instr) : Prop := i.toRaw.fits i.layout = true

theorem FieldsFit.uword (jump : Addr) (up down door clr : Bool) (sel : BitVec 2) (inv : Bool) :
    FieldsFit.Statement (.uword jump up down door clr sel inv) := by
  have hj := jump.isLt
  have hs := sel.isLt
  simp [FieldsFit.Statement, Instr.toRaw, Instr.layout, RawInstr.fits, Bool.toNat_le, hj, hs]

theorem FieldsFit.uwordB (jump : Addr) (up down door clr : Bool) (sel : BitVec 3) (inv : Bool) :
    FieldsFit.Statement (.uwordB jump up down door clr sel inv) := by
  have hj := jump.isLt
  have hs := sel.isLt
  simp [FieldsFit.Statement, Instr.toRaw, Instr.layout, RawInstr.fits, Bool.toNat_le, hj, hs]

end Sys2Proof.Laws
end

