-- ==== Sys2Proof/Laws/Runs.lean ====
section
/-! SUPPORT. Runs: what `Host.Core.run` does at one transition, and what one transition of the STEP and TICK, LOAD and
INIT cases is, said once. -/

namespace Sys2Proof.Machine

theorem run_zero (cfg : Config) (s : State) : (coreWith cfg).run 0 s = .next s := rfl

/-- A run goes on from the state its first step answers. -/
theorem run_succ {cfg : Config} {s t : State} (k : Nat) (h : stepWith cfg s = .next t) :
    (coreWith cfg).run (k + 1) s = (coreWith cfg).run k t := by
  have hs : (coreWith cfg).step s = .next t := h
  have hr := Host.Core.run.eq_2 (coreWith cfg) s k
  rw [hs] at hr
  exact hr

/-- A run from a faulted state is stuck at its first step. -/
theorem run_stuck {s : State} {r : FaultRecord} (cfg : Config) (k : Nat) (h : s.fault = some r) :
    (coreWith cfg).run (k + 1) s = .fault (.stuck r) := by
  have hs : (coreWith cfg).step s = .fault (.stuck r) := stepWith_stuck cfg h
  have hr := Host.Core.run.eq_2 (coreWith cfg) s k
  rw [hs] at hr
  exact hr

/-- Past STEP's entry, STEP and TICK leave the stepped state. -/
theorem stepWith_completes {cfg : Config} {s : State} {c : Bool} (hf : s.fault = none)
    (hc : conditionActive s = some c) (hi : s.init = true) (hp : s.pc.toNat < memSize) :
    stepWith cfg s = .next (s.stepped c (fetchInstr cfg s)) := by
  rw [stepWith_requested cfg hf hc, stepInstr, stepEntry_enters hf hc hi hp]

theorem stepWith_init {cfg : Config} {s : State} {q : List HostOp} (hf : s.fault = none)
    (hq : s.hostOps = .init :: q) : stepWith cfg s = .next (s.initialised cfg) := by
  simp [stepWith, perform, hf, hq, performInit]

theorem stepWith_load {cfg : Config} {s : State} {a : Addr} {w : Word} {q : List HostOp} (hf : s.fault = none)
    (hq : s.hostOps = .load a w :: q) : stepWith cfg s = performLoad a w s := by
  simp [stepWith, perform, hf, hq]

theorem performLoad_completes {s : State} {a : Addr} (w : Word) (hi : s.init = true) (ha : a.toNat < memSize) :
    performLoad a w s = .next (s.loaded a w) := by
  simp [performLoad, hi, Nat.not_le.mpr ha]

end Sys2Proof.Machine
end

