-- ==== Sys2Proof/Tests/Slice0.lean ====
section
/-! SUPPORT. Tests of single steps, with expected values from spec/95_test_vectors.md or worked out by hand from the rule
named, and for every statement with hypotheses a concrete state and operands that meet them. -/

namespace Sys2Proof.Tests

open Sys2Proof.Machine

/-- The next state an outcome gives, so that `decide` can compare it. -/
def after : Host.Outcome State Fault Refusal → Option State
  | .next s => some s
  | _ => none

/-- The fault an outcome gives. -/
def faultOf : Host.Outcome State Fault Refusal → Option Fault
  | .fault r => some r
  | _ => none

/-- A state past INIT with `PC`, one word stored at `PC`, and the host's operations. -/
def stateAt (pc : Addr) (w : Word) (ops : List HostOp) : State :=
  { State.reset with pc := pc, mem := Memory.writeWord [] pc.toNat w, hostOps := ops }

/-- Layout B with checks on, and layout A with checks off. -/
def cfgB : Config := ⟨.layoutB, true⟩
def cfgAOff : Config := ⟨.layoutA, false⟩

/-- Some call pending, and none (95_test_vectors.md: in=10001, in=00001). -/
def callBelowIn : Inputs := ⟨true, false, false, false, true⟩
def idleIn : Inputs := ⟨false, false, false, false, true⟩

/-! ### WellFormed: an ill-formed term for each check, which the check refuses -/

theorem test_wf_layoutB_record_refused : (Instr.uwordB 0 false false false false 0 false).wellFormed = false := by decide
theorem test_wf_layoutA_record_refused_by_B :
    (Instr.uword 0 false false false false 0 false).ofLayout .layoutB = false := by decide
theorem test_wf_zero : (Instr.zero .layoutA).wellFormed = true := by decide
theorem test_fits_jump : RawInstr.fits .layoutA ⟨256, 0, 0, 0, 0, 0, 0⟩ = false := by decide
theorem test_fits_up : RawInstr.fits .layoutA ⟨0, 2, 0, 0, 0, 0, 0⟩ = false := by decide
theorem test_fits_down : RawInstr.fits .layoutA ⟨0, 0, 2, 0, 0, 0, 0⟩ = false := by decide
theorem test_fits_door : RawInstr.fits .layoutA ⟨0, 0, 0, 2, 0, 0, 0⟩ = false := by decide
theorem test_fits_clr : RawInstr.fits .layoutA ⟨0, 0, 0, 0, 2, 0, 0⟩ = false := by decide
theorem test_fits_sel_A : RawInstr.fits .layoutA ⟨0, 0, 0, 0, 0, 4, 0⟩ = false := by decide
theorem test_fits_sel_B : RawInstr.fits .layoutB ⟨0, 0, 0, 0, 0, 8, 0⟩ = false := by decide
theorem test_fits_inv : RawInstr.fits .layoutA ⟨0, 0, 0, 0, 0, 0, 2⟩ = false := by decide
theorem test_fits_widest : RawInstr.fits .layoutA ⟨255, 1, 1, 1, 1, 3, 1⟩ = true := by decide

/-! ### DECODE: words written out bit by bit from R62 and R63, fields as in 95_test_vectors.md V1 -/

/-- `- i ss c d D U jjjjjjjj` = 0 1 01 1 0 1 0 01011010. -/
theorem test_decode_A_bits :
    decode .layoutA 0b0101101001011010 = .uword 90 false true false true 1 true := by decide
/-- `i sss c d D U jjjjjjjj` = 1 010 1 0 1 1 11001101. -/
theorem test_decode_B_bits :
    decode .layoutB 0b1010101111001101 = .uwordB 205 true true false true 2 true := by decide
theorem test_decode_A_bit15 : decode .layoutA 0x8000 = Instr.zero .layoutA := by decide
theorem test_decode_B_bit15 : decode .layoutB 0x8000 = .uwordB 0 false false false false 0 true := by decide
theorem test_decode_A_all : decode .layoutA 0xFFFF = .uword 255 true true true true 3 true := by decide
theorem test_decode_B_bit14 : decode .layoutB 0x4000 = .uwordB 0 false false false false 4 false := by decide
theorem test_decode_table_word : decodeTableWord 16 0x0F00 = some (.uword 0 true true true true 0 false) := by decide
theorem test_decode_nothing : decodeWords .layoutA [] = .error .truncated := rfl

/-! ### ENCODE: 95_test_vectors.md V2 -/

theorem test_encode_V2_first : encodeRaw Config.thisHardware ⟨0, 0, 0, 1, 0, 0, 1⟩ = .ok 0x4400 := rfl
theorem test_encode_V2_all : encodeRaw Config.thisHardware ⟨255, 1, 1, 1, 1, 3, 1⟩ = .ok 0x7FFF := rfl
theorem test_encode_V2_order : encodeRaw Config.thisHardware ⟨0, 2, 0, 0, 0, 9, 0⟩ = .error (.up, 2) := rfl
theorem test_encode_V2_masked : encodeRaw cfgAOff ⟨0, 2, 0, 0, 0, 9, 0⟩ = .ok 0x1000 := rfl
theorem test_encode_V2_B : encodeRaw cfgB ⟨0, 0, 0, 0, 0, 7, 1⟩ = .ok 0xF000 := rfl
theorem test_encode_pattern : encode (.uword 90 false true false true 1 true) = 0x5A5A := by decide

/-! ### EVAL: rows of 95_test_vectors.md V3 and its corner vectors -/

theorem test_eval_V3_row : (List.range 8).map (fun n => evaluate false (BitVec.ofNat 3 n) ⟨false, true, true, true, false⟩) =
    [true, false, true, true, true, false, false, false] := by decide
theorem test_eval_inverted : (List.range 8).map (fun n => evaluate true (BitVec.ofNat 3 n) ⟨true, false, false, false, true⟩) =
    [false, false, true, true, true, false, true, true] := by decide
theorem test_eval_wide_fault :
    (after (step { State.reset with hostOps := [.eval false 8 idleIn] })).map (·.fault) = some (some (.selRange 8)) := by
  decide
theorem test_eval_seven :
    (after (step { State.reset with hostOps := [.eval true 7 idleIn] })).map (·.reply) = some (.cond true) := by decide

/-! ### STEP: 95_test_vectors.md V4 -/

theorem test_step_V4_1 : (after (step (stateAt 5 0x0810 [.step true]))).map (fun t => (t.pc, t.out)) =
    some (16, .uword 16 false false false true 0 false) := by decide
theorem test_step_V4_3 : (after (step (stateAt 254 0x0000 [.step false]))).map (·.pc) = some 0 := by decide
/-- V4.6: `PC` and `OUT` unchanged, `FAULT` set. -/
theorem test_step_V4_6 : (after (step { State.reset with pc := 255, hostOps := [.step true] })).map
    (fun t => (t.pc, t.out, t.fault)) = some (255, Instr.zero .layoutA, some (.pcRange 255)) := by decide
theorem test_step_V4_9 : (after (step (stateAt 100 0xFFFF [.step true]))).map (fun t => (t.pc, t.outputPorts)) =
    some (255, ⟨true, true, true, true⟩) := by decide
theorem test_step_V4_11 : faultOf (step { State.reset with fault := some (.pcRange 255), hostOps := [.init] }) =
    some (.stuck (.pcRange 255)) := by decide
theorem test_exec_uword : (after (exec (.uword 7 false true false false 2 true)
    { State.reset with hostOps := [.step true] })).map (fun t => (t.pc, t.out)) =
    some (7, .uword 7 false true false false 2 true) := by decide
theorem test_exec_uwordB : (after (exec (.uwordB 7 true false false false 7 true)
    { State.reset with pc := 3, hostOps := [.step false] })).map (fun t => (t.pc, t.out)) =
    some (4, .uwordB 7 true false false false 7 true) := by decide
theorem test_stepB_decodes_layoutB : (after (stepWith cfgB (stateAt 2 0xF400 [.step false]))).map (·.out) =
    some (.uwordB 0 false false true false 7 true) := by decide

/-! ### TICK: 95_test_vectors.md V6 and programs P2, P4 -/

theorem test_tick_V6_1 : (after (step { State.reset with hostOps := [.tick idleIn] })).map (·.pc) = some 1 := by decide
theorem test_tick_V6_2 : (after (step { stateAt 0 0x0022 [.tick callBelowIn] with out := Instr.zero .layoutA })).map
    (fun t => (t.pc, t.reply)) = some (0x22, .outputs ⟨false, false, false, false⟩) := by decide
/-- V6.5: `OUT` sel=2 inv=1, call at the same floor: not taken. -/
theorem test_tick_V6_5 : (after (step { stateAt 3 0x0409 [.tick ⟨false, true, false, false, false⟩] with
    out := .uword 0 false false false false 2 true })).map (fun t => (t.pc, t.reply)) =
    some (4, .outputs ⟨false, false, true, false⟩) := by decide
/-- V6.6, layout B: sel=4 inv=1, door closed: not taken. -/
theorem test_tick_V6_6 : conditionActive { State.reset with
    out := .uwordB 0 false false false false 4 true, hostOps := [.tick ⟨false, false, false, true, false⟩] } =
    some false := by decide

/-! ### LOAD, INIT and power-on: 95_test_vectors.md V5, V4.10 -/

theorem test_load_V5_1 : (after (step { State.reset with hostOps := [.load 3 0x4400] })).map
    (fun t => (t.mem.readWord 3, t.mem.readWord 2, t.pc)) = some (0x4400, 0, 0) := by decide
theorem test_load_V5_2 : (after (step { State.reset with hostOps := [.load 254 0xFFFF] })).map
    (fun t => (t.mem.readWord 254, t.mem)) = some (0xFFFF, [(508, 0xFF), (509, 0xFF)]) := by decide
theorem test_load_V5_3 : (after (step { State.reset with hostOps := [.load 255 0] })).map
    (fun t => (t.fault, t.mem)) = some (some (.loadRange 255), []) := by decide
theorem test_load_keeps_canonical : (after (step { stateAt 3 0x4400 [.load 3 0] with pc := 17 })).map (·.mem) =
    some [] := by decide
theorem test_init_V5_5 : (after (step { stateAt 3 0x4400 [.init] with pc := 17, out := decode .layoutA 0x4400 })).map
    (fun t => (t.pc, t.mem, t.out)) = some (0, [], Instr.zero .layoutA) := by decide
theorem test_powerOn_V4_10 : ∃ t, step { State.powerOn Config.thisHardware with hostOps := [.step false] } = .next t ∧
    t.fault = some (.uninit .step) := ⟨_, rfl, rfl⟩
/-- A core built with layout B holds that layout's `ZERO_INSTR` after reset (R4, R12, R170). -/
theorem test_reset_layoutB : (State.resetWith cfgB).out = .uwordB 0 false false false false 0 false := by decide
theorem test_fault_port : { State.reset with fault := some (.loadRange 255) : State }.faultPort =
    some (3, .loadRange 255) := by decide
theorem test_encode_op_fault : (after (step { State.reset with hostOps := [.encode ⟨256, 0, 0, 0, 0, 0, 0⟩] })).map
    (fun t => (t.fault, t.pc)) = some (some (.encWidth .jump 256), 0) := by decide
theorem test_decode_op : (after (step { State.reset with hostOps := [.decode 0x4400] })).map (·.reply) =
    some (.instr (.uword 0 false false true false 0 true)) := by decide

/-! ### The notation (R74) and the host's check -/

/-- The example of R74: `UWORD jump=0 DOOR sel=ANY INV` is 0x4400 under layout A. -/
theorem test_asm_R74 : (assemble .layoutA (.uword (some 0) false false true false
    (.select (some (.name .any)) true))).map encode = .ok 0x4400 := rfl
/-- Program P4, word 2: `UWORD jump=0 DOOR cond=TRUE` is 0xF400 under layout B. -/
theorem test_asm_P4 : (assemble .layoutB (.uword (some 0) false false true false .condTrue)).map encode =
    .ok 0xF400 := rfl
theorem test_asm_text : asmText (.uword (some 0) false false true false (.select (some (.name .any)) true)) =
    "UWORD jump=0 DOOR sel=ANY INV" := by decide
/-- Program P4, word 0, from its text to its word. -/
theorem test_asm_parse : (asmParse "UWORD jump=0 sel=CLOSED INV").map (fun l => (assemble .layoutB l).map encode) =
    some (.ok 0xC000) := rfl
theorem test_asm_parse_flags : asmParse "UWORD jump=16 UP CLR sel=3" =
    some (.uword (some 16) true false false true (.select (some (.number 3)) false)) := by decide
theorem test_asm_parse_refused : asmParse "UWORD CLR UP" = none := by decide
/-- The model's choice (notes/assumptions/14.md): `INV` after `cond=TRUE` is none of the notation. -/
theorem test_asm_parse_cond_inv : asmParse "UWORD cond=TRUE INV" = none := by decide
/-- `cond=FALSE` is `sel=FALSE`, selector 7 at bits 14..12 under layout B. -/
theorem test_asm_cond_false : (asmParse "UWORD jump=5 cond=FALSE").map (fun l => (assemble .layoutB l).map encode) =
    some (.ok 0x7005) := rfl
theorem test_fetch_word : (after (step (State.reset.withFetchWord 16 0x0810))).map (fun t => (t.pc, t.out)) =
    some (1, .uword 16 false false false true 0 false) := by decide

/-! ### Witnesses: a concrete state and operands for the hypotheses of each statement, each clause at a boundary -/

theorem witness_DecodeOfEncodeIsTheRecord :
    (Instr.uword 255 true false true false 3 true).ofLayout .layoutA = true ∧
    (Instr.uwordB 255 true false true false 7 true).ofLayout .layoutB = true := by decide

/-- Also for EncodeByMaskingWritesTheBitPattern. -/
theorem witness_EncodeAndDecodeRoundTrip :
    RawInstr.fits .layoutA ⟨255, 1, 1, 1, 1, 3, 1⟩ = true ∧ RawInstr.fits .layoutB ⟨0, 0, 0, 0, 0, 7, 0⟩ = true ∧
    (0x7FFF : Word).getLsbD 15 = false ∧ (0x0000 : Word).getLsbD 15 = false ∧
    decode .layoutB 0xFFFF = decode .layoutB 0xFFFF := by decide

theorem witness_Bit15OfLayoutAIsNoField :
    encodeRaw ⟨.layoutA, true⟩ ⟨255, 1, 1, 1, 1, 3, 1⟩ = .ok 0x7FFF ∧
    (Memory.wf [(509, 0x80)] ∧ Memory.cleared.wf) ∧
    (∃ t, stepWith ⟨.layoutA, true⟩ { State.reset with hostOps := [.load 254 0x8000] } = .next t) ∧
    ∃ t, stepWith ⟨.layoutA, true⟩ { State.reset with mem := Memory.cleared, hostOps := [.step true] } = .next t :=
  ⟨rfl, ⟨by decide, by decide⟩, ⟨_, rfl⟩, ⟨_, rfl⟩⟩

/-- The memories of the last clause: words that differ in bit 15 alone. -/
theorem witness_Bit15_memories :
    ∀ a, Memory.readWord [(509, 0x80)] a &&& 0x7FFF = Memory.cleared.readWord a &&& 0x7FFF := by
  intro a
  rw [Memory.readWord_cleared]
  by_cases h : a = 254
  · subst h; decide
  · simp [Memory.readWord, Memory.readCell, show ¬ 2 * a + 1 = 509 by omega, show ¬ 2 * a = 509 by omega]

/-- STEP's entry conditions at the last address, with either condition: for NoWordIsIllegal,
UwordAndUwordBComplete, StepRunsTheDecodedInstruction, NotTakenAdvancesModulo255 and
TakenGoesToTheFetchedJump. -/
theorem witness_step_enters :
    let s := fun c => stateAt 254 0xFFFF [.step c]
    ∀ c, (s c).fault = none ∧ conditionActive (s c) = some c ∧ (s c).init = true ∧ (s c).pc.toNat < 255 := by decide

/-- The entry conditions met by a TICK (the other reply of UwordAndUwordBComplete), and an instruction of the
layout the word at `PC` decodes to. -/
theorem witness_tick_enters :
    let s := stateAt 0 0x4400 [.tick callBelowIn]
    s.fault = none ∧ conditionActive s = some true ∧ s.init = true ∧ s.pc.toNat < 255 ∧
    decode .layoutA (s.mem.readWord s.pc.toNat) = .uword 0 false false true false 0 true := by decide

theorem witness_UwordAndUwordBFaultAtTheEntry :
    let a := { State.reset with init := false, hostOps := [HostOp.step true] }
    let b := { State.reset with pc := 255, hostOps := [HostOp.tick idleIn] }
    (a.fault = none ∧ conditionActive a = some true ∧ a.init = false) ∧
    (b.fault = none ∧ conditionActive b = some false ∧ b.init = true ∧ b.pc = 255) := by decide

theorem witness_UwordAndUwordBFrame :
    (∃ t, exec (.uword 255 true true true true 3 true) (stateAt 254 0x7FFF [.step true]) = .next t ∧ t.fault = none) ∧
    ∃ t, exec (.uwordB 0 true true true true 7 true) { State.reset with pc := 255, hostOps := [.step true] } = .next t ∧
      t.fault = some (.pcRange 255) := ⟨⟨_, rfl, rfl⟩, ⟨_, rfl, rfl⟩⟩

theorem witness_ExecStopsOnlyWhenFaultedOrNotRequested :
    (exec (.uword 0 false false false false 0 false) { State.reset with fault := some (.selRange 8) } =
      .fault (.stuck (.selRange 8))) ∧
    exec (.uwordB 0 false false false false 0 false) State.reset = .refused .noStepRequested := ⟨rfl, rfl⟩

/-- Each case of StepOperation: faulted, before INIT, `PC = 255`, and `PC = 254`. -/
theorem witness_StepOperation :
    let q : List HostOp := [.step true]
    ({ State.reset with fault := some (.uninit .load), hostOps := q : State }.hostOps = .step true :: []) ∧
    (stateAt 254 0 q).fault = none ∧ { State.reset with init := false, hostOps := q : State }.init = false ∧
    255 ≤ { State.reset with pc := 255, hostOps := q : State }.pc.toNat := by decide

theorem witness_TickOperation :
    (∃ t, stepWith cfgB { State.reset with hostOps := [.step (evaluate false 0 callBelowIn)] } = .next t ∧
      t.fault = none) ∧
    (∃ t, stepWith cfgB { State.reset with pc := 255, hostOps := [.step (evaluate false 0 callBelowIn)] } = .next t ∧
      t.fault = some (.pcRange 255)) ∧
    ∃ r, stepWith cfgB { State.reset with fault := some (.pcRange 255), hostOps := [.step true] } = .fault r :=
  ⟨⟨_, rfl, rfl⟩, ⟨_, rfl, rfl⟩, ⟨_, rfl⟩⟩

theorem witness_BranchTo255FaultsAtTheNextStep :
    let s := stateAt 0 0x00FF [.tick callBelowIn, .tick callBelowIn]
    (s.fault = none ∧ conditionActive s = some true ∧ s.init = true ∧ s.pc.toNat < 255 ∧
      (s.mem.readWord s.pc.toNat).toNat % 256 = 255) ∧
    ((after (step s)).bind conditionActive = some true) ∧
    (after (step (stateAt 254 0x00FF [.step false]))).map (·.fault) = some none := by decide

theorem witness_NewPcIgnoresSelectorInvertAndFlags :
    let s := stateAt 7 0x7F07 [.step true]
    let m := Memory.writeWord [] 7 0x0007
    ((s.mem.readWord 7).extractLsb' 0 8 = (m.readWord 7).extractLsb' 0 8) ∧ conditionActive s ≠ none ∧
    (after (step s)).isSome ∧ (after (step { s with mem := m })).isSome := by decide

/-- Also for OnlyInitAndStepWritePc, OnlyInitAndLoadWriteMem and OnlyInitSetsInitAndNothingClearsIt: next states of
STEP, of an operation that is neither STEP, TICK, INIT nor LOAD, of INIT, and of no operation. -/
theorem witness_OutputPortsComeFromOut :
    ((after (step (stateAt 254 0xFF00 [.step false]))).map (·.fault) = some none) ∧
    ((after (step { State.reset with hostOps := [.decode 0] })).isSome ∧
      conditionActive { State.reset with hostOps := [.decode 0] } = none) ∧
    ((after (step { State.reset with init := false, hostOps := [.init] })).map (·.init) = some true) ∧
    (after (step State.reset)).isSome := by decide

/-- The three clauses: an operation waiting in a core that is not faulted, with a next state; and a core with none
waiting, whose state stays. -/
theorem witness_EachTransitionPerformsTheOldestOperation :
    let s := stateAt 254 0x00FF [.tick callBelowIn, .load 255 0]
    (s.fault = none ∧ s.hostOps = .tick callBelowIn :: [.load 255 0]) ∧ (after (stepWith cfgB s)).isSome ∧
    after (stepWith cfgB State.reset) = some State.reset := by decide

theorem witness_EvalOperationAtAWidePort :
    let s := fun n => { State.reset with hostOps := [HostOp.eval false n idleIn] }
    ((s 7).fault = none ∧ (s 7).hostOps = .eval false 7 idleIn :: []) ∧ (s 8).fault = none ∧
    (∃ b, stepWith cfgAOff (s 8) = .next { s 8 with hostOps := [], reply := .cond b, draws := 1 }) ∧
    (conditionActive (stateAt 0 0 [.step true]) ≠ none ∧ (after (step (stateAt 0 0 [.step true]))).isSome) :=
  ⟨⟨rfl, rfl⟩, rfl, ⟨_, rfl⟩, by decide, by decide⟩

theorem witness_LayoutAConditionsReadTheCallsOnly :
    (⟨true, false, true, false, false⟩ : Inputs).callBelow = (⟨true, false, true, true, true⟩ : Inputs).callBelow :=
  rfl

theorem witness_SelectorsSixAndSevenAreConstantFalse :
    selPort (decode .layoutB 0xE000) = 6 ∧ selPort (decode .layoutB 0xFFFF) = 7 := by decide

theorem witness_InitOperation :
    { stateAt 254 0xFFFF [.init, .init] with init := false }.fault = none ∧
    { State.reset with fault := some (.uninit .step), hostOps := [.init] : State }.fault = some (.uninit .step) :=
  by decide

/-- LOAD's cases: at 254, at 255, before INIT and faulted. -/
theorem witness_LoadOperation :
    let s := fun a => stateAt 254 0x1234 [.load a 0xFFFF]
    ((s 254).mem.wf ∧ (s 254).fault = none ∧ (s 254).init = true ∧ (254 : Addr).toNat < 255) ∧
    ((s 255).mem.wf ∧ 255 ≤ (255 : Addr).toNat) ∧ { s 0 with init := false }.init = false ∧
    { s 0 with fault := some (.loadRange 255) }.fault = some (.loadRange 255) := by decide

theorem witness_LoadsLeaveTheLastWordWritten :
    let loads : List (Addr × Word) := [(254, 0x1111), (0, 0x2222), (254, 0x3333)]
    let s : State := { State.reset with hostOps := loads.map (fun p : Addr × Word => HostOp.load p.1 p.2) ++ [HostOp.init] }
    s.mem.wf ∧ s.fault = none ∧ s.init = true ∧ (∀ p ∈ loads, p.1.toNat < 255) ∧
    lastLoaded loads 254 = some 0x3333 ∧ lastLoaded loads 1 = none :=
  ⟨Memory.wf_cleared, rfl, rfl, by simp, rfl, rfl⟩

/-- Program P5: LOAD(0, 0x4405) between two ticks, with `OUT = decode(0x4400)`. -/
theorem witness_LoadIsSeenByTheNextFetch :
    let s := { stateAt 0 0x4400 [.load 0 0x4405, .tick idleIn] with out := decode .layoutA 0x4400 }
    s.mem.wf ∧ s.fault = none ∧ s.init = true ∧ s.pc.toNat < 255 ∧ s.hostOps = .load s.pc 0x4405 :: .tick idleIn :: [] ∧
    evaluate (invPort s.out) (selPort s.out) idleIn = true := by decide

theorem witness_PowerOnNeedsInit :
    (∃ c, HostOp.step true = .step c) ∧ ∃ inp, HostOp.tick idleIn = .tick inp := ⟨⟨_, rfl⟩, ⟨_, rfl⟩⟩

theorem witness_FirstTickBranchesOnAnyCall :
    let s := { stateAt 9 0xFFFF [.init, .load 0 0x00FF, .tick callBelowIn] with init := false }
    s.fault = none ∧ s.hostOps = .init :: .load 0 0x00FF :: .tick callBelowIn :: [] := by decide

/-- A transition that raises each of the five causes, for FaultsArePreciseAndTerminal and
FaultCausesAreTheFiveOfTheTable. -/
theorem witness_faults :
    ((after (step { State.reset with init := false, hostOps := [.tick idleIn] })).map (·.fault) =
      some (some (.uninit .step))) ∧
    ((after (step { State.reset with init := false, hostOps := [.load 255 0] })).map (·.fault) =
      some (some (.uninit .load))) ∧
    ((after (step { State.reset with pc := 255, hostOps := [.step false] })).map (·.fault) =
      some (some (.pcRange 255))) ∧
    ((after (step { State.reset with hostOps := [.load 255 0] })).map (·.fault) = some (some (.loadRange 255))) ∧
    ((after (step { State.reset with hostOps := [.encode ⟨0, 0, 0, 0, 0, 4, 0⟩] })).map (·.fault) =
      some (some (.encWidth .sel 4))) ∧
    ((after (step { State.reset with hostOps := [.eval true 8 idleIn] })).map (·.fault) =
      some (some (.selRange 8))) := by decide

theorem witness_ChecksDecideEncodeAndEvalOnly :
    (∀ i q, (stateAt 0 0 [.load 255 0]).hostOps ≠ .encode i :: q) ∧
    ∀ inv sel inp q, (stateAt 0 0 [.load 255 0]).hostOps ≠ .eval inv sel inp :: q := by simp [stateAt]

theorem witness_EveryStepAnswersUnlessFaulted :
    State.reset.fault = none ∧ { State.reset with fault := some (.selRange 8) : State }.fault = some (.selRange 8) := by
  decide

theorem witness_PureFunctionsChangeNoCoreState :
    (after (step { State.reset with hostOps := [.decode 0xFFFF] })).isSome ∧
    encodeRaw Config.thisHardware ⟨255, 1, 1, 1, 1, 3, 1⟩ = .ok 0x7FFF ∧
    (after (step { State.reset with hostOps := [.encode ⟨255, 1, 1, 1, 1, 3, 1⟩] })).map (·.reply) =
      some (.word 0x7FFF) ∧
    (after (step { State.reset with hostOps := [.eval true 7 idleIn] })).isSome := ⟨by decide, rfl, by decide, by decide⟩

theorem witness_EveryStepKeepsTheStateInv :
    let s := stateAt 254 0xFFFF [.load 254 0x00FF]
    let b := { stateAt 254 0xFFFF [.step true] with out := Instr.zero .layoutB }
    s.Inv Config.thisHardware ∧ (after (step s)).isSome ∧ b.Inv cfgB ∧ (after (stepWith cfgB b)).isSome := by decide

/-- A safe state, for SafeRunsNeverFault: at `PC = 254`, with an operation of each kind to come. -/
theorem witness_SafeRunsNeverFault :
    let s := { State.reset with pc := 254, hostOps := [.tick callBelowIn, .load 254 0xFFFE, .encode ⟨255, 1, 1, 1, 1, 3, 1⟩,
      .eval true 7 idleIn, .decode 0xFFFF, .init, .step true] }
    s.mem.wf ∧ s.Safe Config.thisHardware :=
  ⟨Memory.wf_cleared, rfl, rfl, by decide,
    fun a _ => by rw [show State.mem _ = Memory.cleared from rfl, Memory.readWord_cleared]; decide, by decide⟩

/-- Two ticks of program P2, for TickRunsFollowTheRecurrence; the run starts at the last address. -/
theorem witness_TickRunsFollowTheRecurrence :
    let s := { stateAt 254 0x4400 [.tick idleIn, .tick callBelowIn] with out := decode .layoutA 0x4400 }
    s.fault = none ∧ s.init = true ∧
    (∀ k < 2, (recurrenceRun Config.thisHardware s.mem (s.pc, s.out) ([idleIn, callBelowIn].take k)).1.toNat < 255) ∧
    s.hostOps = [idleIn, callBelowIn].map (fun inp => .tick inp) ++ [] := by decide

/-- The run from its boot: INIT from power-on, two LOADs at one address, the last one, two ticks. -/
theorem witness_TickRunsFollowTheRecurrence_boot :
    let loads : List (Addr × Word) := [(254, 0x1111), (0, 0x02FE), (254, 0x4400)]
    let ins := [callBelowIn, idleIn]
    let m : Memory := (Memory.writeWord [] 0 0x02FE).writeWord 254 0x4400
    let s : State := { State.powerOn Config.thisHardware with
      hostOps := .init :: (loads.map (fun p => .load p.1 p.2) ++ (ins.map (fun inp => .tick inp) ++ [])) }
    s.fault = none ∧ (∀ p ∈ loads, p.1.toNat < 255) ∧
    (∀ a, m.readWord a = (lastLoaded loads a).getD 0x0000) ∧
    ∀ k < ins.length, (recurrenceRun Config.thisHardware m (0, decode .layoutA 0x0000) (ins.take k)).1.toNat < 255 := by
  refine ⟨rfl, by simp, fun a => ?_, by decide⟩
  by_cases h1 : a = 254
  · subst h1; decide
  · by_cases h0 : a = 0
    · subst h0; decide
    · rw [Memory.readWord_writeWord_other _ _ h1, Memory.readWord_writeWord_other _ _ h0]
      simp [lastLoaded, Ne.symm h1, Ne.symm h0, Memory.readWord, Memory.readCell]

theorem witness_FetchWordIsTheNextInstruction :
    State.reset.mem.wf ∧ decodeTableWord 16 0x00FF = some (.uword 255 false false false false 0 false) := by decide

/-- Both clauses at their edges, with each form of the operand: 255 and selector 3, or layout B's 7, are lines of the
notation; 256, and 4, or layout B's 8, are not. -/
theorem witness_AssemblerLinesStandForTheirWords :
    let bound := fun l : SelLayout => if l = .layoutA then 4 else 8
    (((some 255).getD 0 ≤ 255 ∧ 3 < bound .layoutA) ∧ ((none : Option Nat).getD 0 ≤ 255 ∧ 7 < bound .layoutB)) ∧
    (¬ ((some 256).getD 0 ≤ 255 ∧ 3 < bound .layoutA) ∧ ¬ ((some 0).getD 0 ≤ 255 ∧ 4 < bound .layoutA) ∧
      ¬ ((some 0).getD 0 ≤ 255 ∧ 8 < bound .layoutB)) ∧
    (some (AsmSel.number 8) = some (.number 8) ∧ ∃ name, some (AsmSel.name .never) = some (.name name) ∧
      (name, 7) ∈ [(Selector.any, 0), (.below, 1), (.same, 2), (.above, 3), (.closed, 4), (.opened, 5), (.rsvd, 6),
        (.never, 7)]) := ⟨by decide, by decide, rfl, .never, rfl, by decide⟩

end Sys2Proof.Tests
end

section
/-! Proofs of the family 00_scope.md, the layer of facts: the equations of one transition, one for each operation
that may be the oldest; which outcome STEP's entry gives; and what the operations behind the oldest can influence. -/

namespace Sys2Proof.Machine

/-! ### STEP of a record, by the state it starts in -/

theorem stepInstr_faulted {s : State} {f : FaultRecord} (i : Instr) (hf : s.fault = some f) :
    stepInstr i s = .fault (.stuck f) := by
  simp [stepInstr, stepEntry, hf]

theorem stepInstr_not_requested {s : State} (i : Instr) (hf : s.fault = none) (hc : conditionActive s = none) :
    stepInstr i s = .refused .noStepRequested := by
  simp [stepInstr, stepEntry, hf, hc]

theorem stepInstr_uninit {s : State} {c : Bool} (i : Instr) (hf : s.fault = none)
    (hc : conditionActive s = some c) (hi : s.init = false) :
    stepInstr i s = .next (s.faulted (.uninit .step)) := by
  simp [stepInstr, stepEntry, raise, hf, hc, hi]

theorem stepInstr_pcRange {s : State} {c : Bool} (i : Instr) (hf : s.fault = none)
    (hc : conditionActive s = some c) (hi : s.init = true) (hp : memSize ≤ s.pc.toNat) :
    stepInstr i s = .next (s.faulted (.pcRange s.pc)) := by
  simp [stepInstr, stepEntry, raise, hf, hc, hi, hp]

theorem stepInstr_completes {s : State} {c : Bool} (i : Instr) (hf : s.fault = none)
    (hc : conditionActive s = some c) (hi : s.init = true) (hp : s.pc.toNat < memSize) :
    stepInstr i s = .next (s.stepped c i) := by
  rw [stepInstr, stepEntry_enters hf hc hi hp]

/-- A requested STEP always has a next state: raising a fault is one too (R151). -/
theorem stepInstr_answers {s : State} {c : Bool} (i : Instr) (hf : s.fault = none)
    (hc : conditionActive s = some c) : ∃ t, stepInstr i s = .next t := by
  cases hi : s.init with
  | false => exact ⟨_, stepInstr_uninit i hf hc hi⟩
  | true =>
    rcases Nat.lt_or_ge s.pc.toNat memSize with hp | hp
    · exact ⟨_, stepInstr_completes i hf hc hi hp⟩
    · exact ⟨_, stepInstr_pcRange i hf hc hi hp⟩

/-! ### LOAD, ENCODE and EVAL always answer a next state -/

theorem performLoad_uninit {s : State} (a : Addr) (w : Word) (hi : s.init = false) :
    performLoad a w s = .next (s.faulted (.uninit .load)) := by
  simp [performLoad, raise, hi]

theorem performLoad_loadRange {s : State} {a : Addr} (w : Word) (hi : s.init = true) (ha : memSize ≤ a.toNat) :
    performLoad a w s = .next (s.faulted (.loadRange a)) := by
  simp [performLoad, raise, hi, ha]

theorem performLoad_answers (a : Addr) (w : Word) (s : State) : ∃ t, performLoad a w s = .next t := by
  cases hi : s.init with
  | false => exact ⟨_, performLoad_uninit a w hi⟩
  | true =>
    rcases Nat.lt_or_ge a.toNat memSize with ha | ha
    · exact ⟨_, performLoad_completes w hi ha⟩
    · exact ⟨_, performLoad_loadRange w hi ha⟩

theorem performEncode_ok {cfg : Config} {i : RawInstr} {w : Word} (s : State) (hw : encodeRaw cfg i = .ok w) :
    performEncode cfg i s = .next (s.retire (.word w)) := by
  simp [performEncode, hw]

theorem performEncode_error {cfg : Config} {i : RawInstr} {f : InstrField} {v : Nat} (s : State)
    (hw : encodeRaw cfg i = .error (f, v)) : performEncode cfg i s = .next (s.faulted (.encWidth f v)) := by
  simp [performEncode, raise, hw]

theorem performEncode_answers (cfg : Config) (i : RawInstr) (s : State) :
    ∃ t, performEncode cfg i s = .next t := by
  rcases hw : encodeRaw cfg i with ⟨f, v⟩ | w
  · exact ⟨_, performEncode_error s hw⟩
  · exact ⟨_, performEncode_ok s hw⟩

theorem performEval_answers (cfg : Config) (inv : Bool) (sel : Nat) (inp : Inputs) (s : State) :
    ∃ t, performEval cfg inv sel inp s = .next t := by
  unfold performEval
  split
  · exact ⟨_, rfl⟩
  · exact ⟨_, rfl⟩

/-! ### One transition, by the oldest operation -/

theorem conditionActive_step {s : State} {c : Bool} {q : List HostOp} (hq : s.hostOps = .step c :: q) :
    conditionActive s = some c := by
  simp [conditionActive, hq]

theorem conditionActive_tick {s : State} {inp : Inputs} {q : List HostOp} (hq : s.hostOps = .tick inp :: q) :
    conditionActive s = some (evaluate (invPort s.out) (selPort s.out) inp) := by
  simp [conditionActive, hq]

/-- Between operations the core holds its whole state (R161). -/
theorem stepWith_idle {s : State} (cfg : Config) (hf : s.fault = none) (hq : s.hostOps = []) :
    stepWith cfg s = .next s := by
  simp [stepWith, perform, hf, hq]

theorem stepWith_decode {s : State} {w : Word} {q : List HostOp} (cfg : Config) (hf : s.fault = none)
    (hq : s.hostOps = .decode w :: q) : stepWith cfg s = performDecode cfg w s := by
  simp [stepWith, perform, hf, hq]

theorem stepWith_encode {s : State} {i : RawInstr} {q : List HostOp} (cfg : Config) (hf : s.fault = none)
    (hq : s.hostOps = .encode i :: q) : stepWith cfg s = performEncode cfg i s := by
  simp [stepWith, perform, hf, hq]

theorem stepWith_eval {s : State} {inv : Bool} {sel : Nat} {inp : Inputs} {q : List HostOp} (cfg : Config)
    (hf : s.fault = none) (hq : s.hostOps = .eval inv sel inp :: q) :
    stepWith cfg s = performEval cfg inv sel inp s := by
  simp [stepWith, perform, hf, hq]

/-- A core that is not faulted always makes a transition (R6). -/
theorem stepWith_answers {s : State} (cfg : Config) (hf : s.fault = none) : ∃ t, stepWith cfg s = .next t := by
  cases hq : s.hostOps with
  | nil => exact ⟨s, stepWith_idle cfg hf hq⟩
  | cons op q =>
    cases op with
    | init => exact ⟨_, stepWith_init hf hq⟩
    | load a w => rw [stepWith_load hf hq]; exact performLoad_answers a w s
    | step c =>
      have hc := conditionActive_step hq
      rw [stepWith_requested cfg hf hc]; exact stepInstr_answers _ hf hc
    | tick inp =>
      have hc := conditionActive_tick hq
      rw [stepWith_requested cfg hf hc]; exact stepInstr_answers _ hf hc
    | decode w => exact ⟨_, stepWith_decode cfg hf hq⟩
    | encode i => rw [stepWith_encode cfg hf hq]; exact performEncode_answers cfg i s
    | eval inv sel inp => rw [stepWith_eval cfg hf hq]; exact performEval_answers cfg inv sel inp s

theorem stepWith_next_not_faulted {cfg : Config} {s t : State} (h : stepWith cfg s = .next t) : s.fault = none :=
  (stepWith_next h).1

/-- Every transition removes exactly the oldest operation. -/
theorem stepWith_next_hostOps {cfg : Config} {s t : State} (h : stepWith cfg s = .next t) :
    t.hostOps = s.hostOps.tail := by
  obtain ⟨-, ⟨hq, rfl⟩ | ⟨q, -, rfl⟩ | ⟨a, w, q, -, h⟩ | ⟨c, -, h⟩ | ⟨w, q, -, rfl⟩ | ⟨i, q, -, h⟩ |
    ⟨inv, sel, inp, q, -, h⟩⟩ := stepWith_next h
  · simp [hq]
  · rfl
  · obtain ⟨-, rfl⟩ | ⟨-, -, rfl⟩ | ⟨-, -, rfl⟩ := performLoad_next h <;> rfl
  · obtain ⟨-, -, -, ⟨-, rfl⟩ | ⟨-, -, rfl⟩ | ⟨-, -, rfl⟩⟩ := stepInstr_next h <;> rfl
  · rfl
  · obtain ⟨w, -, rfl⟩ | ⟨f, v, -, rfl⟩ := performEncode_next h <;> rfl
  · obtain ⟨c, -, rfl⟩ | ⟨-, -, rfl⟩ := performEval_next h <;> rfl

theorem State.retire_of_oldest {s : State} {op : HostOp} {q : List HostOp} (r : Reply) (hq : s.hostOps = op :: q) :
    s.retire r = { s with hostOps := q, reply := r } := by
  simp [State.retire, hq]

/-! ### The operations behind the oldest -/

/-- `s` with another list of operations waiting. -/
def State.withQueue (s : State) (q : List HostOp) : State := { s with hostOps := q }

@[simp] theorem State.withQueue_pc (s : State) (q : List HostOp) : (s.withQueue q).pc = s.pc := rfl
@[simp] theorem State.withQueue_mem (s : State) (q : List HostOp) : (s.withQueue q).mem = s.mem := rfl
@[simp] theorem State.withQueue_out (s : State) (q : List HostOp) : (s.withQueue q).out = s.out := rfl
@[simp] theorem State.withQueue_init (s : State) (q : List HostOp) : (s.withQueue q).init = s.init := rfl
@[simp] theorem State.withQueue_fault (s : State) (q : List HostOp) : (s.withQueue q).fault = s.fault := rfl
@[simp] theorem State.withQueue_hostOps (s : State) (q : List HostOp) : (s.withQueue q).hostOps = q := rfl
@[simp] theorem State.withQueue_reply (s : State) (q : List HostOp) : (s.withQueue q).reply = s.reply := rfl
@[simp] theorem State.withQueue_draws (s : State) (q : List HostOp) : (s.withQueue q).draws = s.draws := rfl

section Requeue
variable {s t : State} {op : HostOp} {q : List HostOp}

/-- The condition of the requested STEP depends on the oldest operation only. -/
theorem conditionActive_withQueue (q' : List HostOp) (hq : s.hostOps = op :: q) :
    conditionActive (s.withQueue (op :: q')) = conditionActive s := by
  unfold conditionActive
  rw [hq]
  cases op <;> rfl

theorem stepReply_withQueue (q' : List HostOp) (i : Instr) (hq : s.hostOps = op :: q) :
    stepReply (s.withQueue (op :: q')) i = stepReply s i := by
  unfold stepReply
  rw [hq]
  cases op <;> rfl

theorem State.stepped_withQueue (q' : List HostOp) (c : Bool) (i : Instr) (hq : s.hostOps = op :: q) :
    (s.withQueue (op :: q')).stepped c i = (s.stepped c i).withQueue q' := by
  simp only [State.stepped, stepReply_withQueue q' i hq]
  rfl

theorem stepInstr_withQueue {i : Instr} (q' : List HostOp) (hq : s.hostOps = op :: q)
    (h : stepInstr i s = .next t) : stepInstr i (s.withQueue (op :: q')) = .next (t.withQueue q') := by
  obtain ⟨hf, c, hc, h⟩ := stepInstr_next h
  rw [← conditionActive_withQueue q' hq] at hc
  obtain ⟨hi, rfl⟩ | ⟨hi, hp, rfl⟩ | ⟨hi, hp, rfl⟩ := h
  · exact stepInstr_uninit (s := s.withQueue (op :: q')) i hf hc hi
  · exact stepInstr_pcRange (s := s.withQueue (op :: q')) i hf hc hi hp
  · rw [← State.stepped_withQueue q' c i hq]
    exact stepInstr_completes i hf hc hi hp

theorem performLoad_withQueue {a : Addr} {w : Word} (q' : List HostOp) (h : performLoad a w s = .next t) :
    performLoad a w (s.withQueue (op :: q')) = .next (t.withQueue q') := by
  obtain ⟨hi, rfl⟩ | ⟨hi, ha, rfl⟩ | ⟨hi, ha, rfl⟩ := performLoad_next h
  · exact performLoad_uninit (s := s.withQueue (op :: q')) a w hi
  · exact performLoad_loadRange (s := s.withQueue (op :: q')) w hi ha
  · exact performLoad_completes (s := s.withQueue (op :: q')) w hi ha

theorem performEncode_withQueue {cfg : Config} {i : RawInstr} (q' : List HostOp)
    (h : performEncode cfg i s = .next t) :
    performEncode cfg i (s.withQueue (op :: q')) = .next (t.withQueue q') := by
  obtain ⟨w, hw, rfl⟩ | ⟨f, v, hw, rfl⟩ := performEncode_next h
  · exact performEncode_ok (s.withQueue (op :: q')) hw
  · exact performEncode_error (s.withQueue (op :: q')) hw

theorem performEval_withQueue {cfg : Config} {inv : Bool} {sel : Nat} {inp : Inputs} (q' : List HostOp)
    (h : performEval cfg inv sel inp s = .next t) :
    performEval cfg inv sel inp (s.withQueue (op :: q')) = .next (t.withQueue q') := by
  unfold performEval at h ⊢
  rw [State.withQueue_draws]
  split at h
  · cases h; rfl
  · cases h; rfl

/-- The operations behind the oldest have no influence on anything but the queue that is left (R7, R50). -/
theorem stepWith_withQueue {cfg : Config} (q' : List HostOp) (hq : s.hostOps = op :: q)
    (h : stepWith cfg s = .next t) : stepWith cfg (s.withQueue (op :: q')) = .next (t.withQueue q') := by
  have hf := stepWith_next_not_faulted h
  have hf' : (s.withQueue (op :: q')).fault = none := (s.withQueue_fault _).trans hf
  cases op with
  | init =>
    rw [stepWith_init hf hq] at h
    cases h
    exact stepWith_init hf' rfl
  | load a w =>
    rw [stepWith_load hf hq] at h
    rw [stepWith_load hf' rfl]
    exact performLoad_withQueue q' h
  | step c =>
    rw [stepWith_requested cfg hf (conditionActive_step hq)] at h
    rw [stepWith_requested cfg hf' (conditionActive_step rfl)]
    exact stepInstr_withQueue q' hq h
  | tick inp =>
    rw [stepWith_requested cfg hf (conditionActive_tick hq)] at h
    rw [stepWith_requested cfg hf' (conditionActive_tick rfl)]
    exact stepInstr_withQueue q' hq h
  | decode w =>
    rw [stepWith_decode cfg hf hq] at h
    cases h
    exact stepWith_decode cfg hf' rfl
  | encode i =>
    rw [stepWith_encode cfg hf hq] at h
    rw [stepWith_encode cfg hf' rfl]
    exact performEncode_withQueue q' h
  | eval inv sel inp =>
    rw [stepWith_eval cfg hf hq] at h
    rw [stepWith_eval cfg hf' rfl]
    exact performEval_withQueue q' h

end Requeue

end Sys2Proof.Machine
end

section
/-! Proofs of the family 00_scope.md: the theorems that settle its statements. -/

namespace Sys2Proof.Machine

/-- Settles O11, by the three kinds of state STEP's entry tells apart: faulted, no STEP requested, STEP
requested. -/
theorem execStopsOnlyWhenFaultedOrNotRequested : Obligations.ExecStopsOnlyWhenFaultedOrNotRequested := by
  intro i s
  rw [exec_eq_stepInstr]
  cases hf : s.fault with
  | some f => simp [stepInstr_faulted i hf, eq_comm]
  | none =>
    cases hc : conditionActive s with
    | none => simp [stepInstr_not_requested i hf hc, eq_comm]
    | some c =>
      obtain ⟨t, ht⟩ := stepInstr_answers i hf hc
      simp [ht]

/-- Settles O33, by `stepWith_answers` and `stepWith_stuck`. -/
theorem everyStepAnswersUnlessFaulted : Obligations.EveryStepAnswersUnlessFaulted := by
  refine fun cfg s => ⟨stepWith_answers cfg, fun r hf => stepWith_stuck cfg hf, fun r hr => ?_⟩
  cases hf : s.fault with
  | some f => rw [stepWith_stuck cfg hf] at hr; cases hr
  | none =>
    obtain ⟨t, ht⟩ := stepWith_answers cfg hf
    rw [ht] at hr; cases hr

/-- Settles O38, by the equation of each operation for the first clause; the other two are
`stepWith_next_hostOps` with `stepWith_idle`, and `stepWith_withQueue`. -/
theorem eachTransitionPerformsTheOldestOperation : Obligations.EachTransitionPerformsTheOldestOperation := by
  refine ⟨fun cfg s op q hf hq => ?_, fun cfg s t h => ⟨stepWith_next_hostOps h, fun hq => ?_⟩,
    fun cfg s t op q q' hq h => stepWith_withQueue q' hq h⟩
  · cases op with
    | init => exact stepWith_init hf hq
    | load a w => exact stepWith_load hf hq
    | step c => exact stepWith_requested cfg hf (conditionActive_step hq)
    | tick inp => exact stepWith_requested cfg hf (conditionActive_tick hq)
    | decode w => exact stepWith_decode cfg hf hq
    | encode i => exact stepWith_encode cfg hf hq
    | eval inv sel inp => exact stepWith_eval cfg hf hq
  · rw [stepWith_idle cfg (stepWith_next_not_faulted h) hq] at h
    cases h; rfl

/-- Settles O37, by the equation of each pure function's transition and what that function can do. -/
theorem pureFunctionsChangeNoCoreState : Obligations.PureFunctionsChangeNoCoreState := by
  intro cfg s t q h
  have hf := stepWith_next_not_faulted h
  refine ⟨fun w hq => ?_, fun i hq => ?_, fun inv sel inp hq => ?_⟩
  · rw [stepWith_decode cfg hf hq] at h
    cases h
    exact State.retire_of_oldest _ hq
  · rw [stepWith_encode cfg hf hq] at h
    obtain ⟨w, hw, rfl⟩ | ⟨f, v, hw, rfl⟩ := performEncode_next h
    · refine ⟨rfl, rfl, rfl, rfl, fun w' hw' => ?_⟩
      cases hw.symm.trans hw'
      exact State.retire_of_oldest _ hq
    · refine ⟨rfl, rfl, rfl, rfl, fun w' hw' => ?_⟩
      cases hw.symm.trans hw'
  · rw [stepWith_eval cfg hf hq] at h
    obtain ⟨c, -, rfl⟩ | ⟨-, -, rfl⟩ := performEval_next h
    · exact ⟨rfl, rfl, rfl, rfl⟩
    · exact ⟨rfl, rfl, rfl, rfl⟩

end Sys2Proof.Machine
end

section
/-! Proofs of the family 10_state.md, the layer of facts: what one transition does to the four pieces `PC`, `MEM`, `OUT`
and `INIT`, said once, and the power-on state under the operations it is asked. -/

namespace Sys2Proof.Machine

/-! ### The core's own state, kept or written -/

/-- `PC`, `MEM`, `OUT` and `INIT` have in `t` the values they have in `s` (R20). -/
structure State.CoreKept (s t : State) : Prop where
  pc : t.pc = s.pc
  mem : t.mem = s.mem
  out : t.out = s.out
  init : t.init = s.init

theorem State.coreKept_refl (s : State) : s.CoreKept s := ⟨rfl, rfl, rfl, rfl⟩

theorem State.coreKept_retire (s : State) (r : Reply) : s.CoreKept (s.retire r) := ⟨rfl, rfl, rfl, rfl⟩

theorem State.coreKept_faulted (s : State) (r : FaultRecord) : s.CoreKept (s.faulted r) := ⟨rfl, rfl, rfl, rfl⟩

theorem State.coreKept_evaluated (s : State) (sel : Nat) (c : Bool) : s.CoreKept (s.evaluated sel c) :=
  ⟨rfl, rfl, rfl, rfl⟩

/-- Only three transitions write the core's state: INIT, a LOAD in range, and a STEP or TICK past its entry. Every other
one, each that raises a fault among them, keeps it (R22, R24, R25, R26, R151). -/
theorem stepWith_next_writes {cfg : Config} {s t : State} (h : stepWith cfg s = .next t) :
    s.CoreKept t ∨
      (∃ q, s.hostOps = .init :: q ∧ t = s.initialised cfg) ∨
      (∃ a w q, s.hostOps = .load a w :: q ∧ a.toNat < memSize ∧ t = s.loaded a w) ∨
      ∃ c, conditionActive s = some c ∧ t = s.stepped c (fetchInstr cfg s) := by
  obtain ⟨-, ⟨-, rfl⟩ | hinit | ⟨a, w, q, hq, h⟩ | ⟨-, -, h⟩ | ⟨w, q, -, rfl⟩ | ⟨i, q, -, h⟩ |
    ⟨inv, sel, inp, q, -, h⟩⟩ := stepWith_next h
  · exact .inl t.coreKept_refl
  · exact .inr (.inl hinit)
  · obtain ⟨-, rfl⟩ | ⟨-, -, rfl⟩ | ⟨-, ha, ht⟩ := performLoad_next h
    · exact .inl (s.coreKept_faulted _)
    · exact .inl (s.coreKept_faulted _)
    · exact .inr (.inr (.inl ⟨a, w, q, hq, ha, ht⟩))
  · obtain ⟨-, c, hc, ⟨-, rfl⟩ | ⟨-, -, rfl⟩ | ⟨-, -, ht⟩⟩ := stepInstr_next h
    · exact .inl (s.coreKept_faulted _)
    · exact .inl (s.coreKept_faulted _)
    · exact .inr (.inr (.inr ⟨c, hc, ht⟩))
  · exact .inl (s.coreKept_retire _)
  · obtain ⟨w, -, rfl⟩ | ⟨f, v, -, rfl⟩ := performEncode_next h
    · exact .inl (s.coreKept_retire _)
    · exact .inl (s.coreKept_faulted _)
  · obtain ⟨c, -, rfl⟩ | ⟨-, -, rfl⟩ := performEval_next h
    · exact .inl (s.coreKept_evaluated sel c)
    · exact .inl (s.coreKept_faulted _)

/-- Nothing clears `INIT` (R26). -/
theorem stepWith_keeps_init {cfg : Config} {s t : State} (hs : s.init = true) (h : stepWith cfg s = .next t) :
    t.init = true := by
  obtain kept | ⟨q, -, rfl⟩ | ⟨a, w, q, -, -, rfl⟩ | ⟨c, -, rfl⟩ := stepWith_next_writes h
  · exact kept.init.trans hs
  · exact s.initialised_init cfg
  · exact hs
  · exact hs

/-! ### The invariant under each write -/

theorem fetchInstr_ofLayout (cfg : Config) (s : State) : (fetchInstr cfg s).ofLayout cfg.selLayout = true :=
  decode_ofLayout _ _

theorem Instr.zero_ofLayout (l : SelLayout) : (Instr.zero l).ofLayout l = true := by
  cases l <;> rfl

theorem State.CoreKept.inv {cfg : Config} {s t : State} (h : s.CoreKept t) (hs : s.Inv cfg) : t.Inv cfg := by
  rwa [State.Inv, h.mem, h.out]

theorem State.inv_initialised (s : State) (cfg : Config) : (s.initialised cfg).Inv cfg :=
  ⟨Memory.wf_cleared, Instr.zero_ofLayout cfg.selLayout⟩

theorem State.inv_loaded {cfg : Config} {s : State} {a : Addr} (w : Word) (hs : s.Inv cfg) (ha : a.toNat < memSize) :
    (s.loaded a w).Inv cfg :=
  ⟨Memory.wf_writeWord w hs.1 ha, hs.2⟩

theorem State.inv_stepped {cfg : Config} {s : State} (c : Bool) (hs : s.Inv cfg) :
    (s.stepped c (fetchInstr cfg s)).Inv cfg :=
  ⟨hs.1, fetchInstr_ofLayout cfg s⟩

theorem stepWith_keeps_inv {cfg : Config} {s t : State} (hs : s.Inv cfg) (h : stepWith cfg s = .next t) :
    t.Inv cfg := by
  obtain kept | ⟨q, -, rfl⟩ | ⟨a, w, q, -, ha, rfl⟩ | ⟨c, -, rfl⟩ := stepWith_next_writes h
  · exact kept.inv hs
  · exact s.inv_initialised cfg
  · exact State.inv_loaded w hs ha
  · exact State.inv_stepped c hs

/-! ### Power-on -/

/-- A STEP or TICK before INIT (R121). -/
theorem stepWith_requested_uninit {s : State} {c : Bool} (cfg : Config) (hf : s.fault = none)
    (hc : conditionActive s = some c) (hi : s.init = false) :
    stepWith cfg s = .next (s.faulted (.uninit .step)) := by
  rw [stepWith_requested cfg hf hc, stepInstr_uninit _ hf hc hi]

/-- A LOAD before INIT (R44). -/
theorem stepWith_load_uninit {s : State} {a : Addr} {w : Word} {q : List HostOp} (cfg : Config) (hf : s.fault = none)
    (hq : s.hostOps = .load a w :: q) (hi : s.init = false) :
    stepWith cfg s = .next (s.faulted (.uninit .load)) := by
  rw [stepWith_load hf hq, performLoad_uninit a w hi]

/-- INIT writes every piece of the state that is free at power-on (R170). -/
theorem State.initialised_powerOn (cfg : Config) :
    ((State.powerOn cfg).withQueue [.init]).initialised cfg = State.resetWith cfg := rfl

theorem stepWith_init_powerOn (cfg : Config) :
    stepWith cfg ((State.powerOn cfg).withQueue [.init]) = .next (State.resetWith cfg) := by
  rw [← State.initialised_powerOn]
  exact stepWith_init rfl rfl

end Sys2Proof.Machine
end

section
/-! Proofs of the family 10_state.md: the theorems that settle its statements. -/

namespace Sys2Proof.Machine

/-- Settles O40, by `stepWith_keeps_inv`, of which this hardware's step is one case. -/
theorem everyStepKeepsTheStateInv : Obligations.EveryStepKeepsTheStateInv :=
  ⟨fun _ _ => stepWith_keeps_inv, fun _ _ _ => stepWith_keeps_inv⟩

/-- Settles O34, by the writes a transition can make: the STEP's is the jump of the word fetched or the increment. -/
theorem onlyInitAndStepWritePc : Obligations.OnlyInitAndStepWritePc := by
  intro cfg s t h
  obtain kept | ⟨q, hq, rfl⟩ | ⟨a, w, q, -, -, rfl⟩ | ⟨c, hc, rfl⟩ := stepWith_next_writes h
  · exact .inl kept.pc
  · exact .inr (.inl ⟨s.initialised_pc cfg, q, hq⟩)
  · exact .inl (s.loaded_pc a w)
  · refine .inr (.inr ⟨c, hc, ?_⟩)
    rw [State.stepped_pc, fetchInstr, jumpOf_decode]
    rfl

/-- Settles O35: of the writes a transition can make, only INIT's and LOAD's touch `MEM`. -/
theorem onlyInitAndLoadWriteMem : Obligations.OnlyInitAndLoadWriteMem := by
  intro cfg s t h hinit hload
  have mem_kept : t.mem = s.mem := by
    obtain kept | ⟨q, hq, -⟩ | ⟨a, w, q, hq, -⟩ | ⟨c, -, rfl⟩ := stepWith_next_writes h
    · exact kept.mem
    · exact absurd hq (hinit q)
    · exact absurd hq (hload a w q)
    · exact s.stepped_mem c _
  simp [mem_kept]

/-- Settles O36, by the writes a transition can make, `stepWith_keeps_init`, and `stepWith_init` for the INIT that sets it. -/
theorem onlyInitSetsInitAndNothingClearsIt : Obligations.OnlyInitSetsInitAndNothingClearsIt := by
  intro cfg s t h
  constructor
  · constructor
    · intro ht
      obtain kept | ⟨q, hq, -⟩ | ⟨a, w, q, -, -, rfl⟩ | ⟨c, -, rfl⟩ := stepWith_next_writes h
      · exact .inl (kept.init ▸ ht)
      · exact .inr ⟨q, hq⟩
      · exact .inl ht
      · exact .inl ht
    · rintro (hs | ⟨q, hq⟩)
      · exact stepWith_keeps_init hs h
      · rw [stepWith_init (stepWith_next_not_faulted h) hq] at h
        cases h
        exact s.initialised_init cfg
  · intro hinit hc
    obtain kept | ⟨q, hq, -⟩ | ⟨a, w, q, -, -, rfl⟩ | ⟨c, hc', -⟩ := stepWith_next_writes h
    · exact kept.out
    · exact absurd hq (hinit q)
    · exact s.loaded_out a w
    · cases hc.symm.trans hc'

/-- Settles O28, by what STEP, TICK and LOAD do before INIT, and by `stepWith_init_powerOn`. -/
theorem powerOnNeedsInit : Obligations.PowerOnNeedsInit := by
  refine ⟨fun cfg op hop => ?_, fun cfg a w => ⟨_, stepWith_load_uninit cfg rfl rfl rfl, rfl⟩,
    stepWith_init_powerOn Config.thisHardware, stepWith_init_powerOn⟩
  obtain ⟨c, rfl⟩ | ⟨inp, rfl⟩ := hop
  · exact ⟨_, stepWith_requested_uninit cfg rfl (conditionActive_step rfl) rfl, rfl⟩
  · exact ⟨_, stepWith_requested_uninit cfg rfl (conditionActive_tick rfl) rfl, rfl⟩

end Sys2Proof.Machine
end

section
/-! Proofs of the family 20_memory.md, the layer of facts: `MEM` after LOADs, what a STEP leaves alone, and the states from
which no transition faults. -/

namespace Sys2Proof.Machine

/-! ### `MEM` after a LOAD -/

/-- `MemWrite` leaves every cell outside the word alone. -/
theorem Memory.readCell_writeWord_other (m : Memory) {a k : Nat} (w : Word) (hlow : k ≠ 2 * a)
    (hhigh : k ≠ 2 * a + 1) : (m.writeWord a w).readCell k = m.readCell k := by
  rw [Memory.writeWord, Memory.readCell_writeCell_other _ _ hhigh, Memory.readCell_writeCell_other _ _ hlow]

/-- `MemRead` at any address after a `MemWrite`. -/
theorem Memory.readWord_writeWord {m : Memory} (a a' : Nat) (w : Word) (h : m.wf) :
    (m.writeWord a w).readWord a' = if a = a' then w else m.readWord a' := by
  split
  next e => exact e ▸ Memory.readWord_writeWord_same a w h
  next ne => exact Memory.readWord_writeWord_other m w (Ne.symm ne)

/-- The word at an address after a LOAD and then the LOADs `rest`, which leave there what `lastLoaded` says. -/
theorem lastLoaded_cons_getD {m : Memory} (addr : Addr) (w : Word) (rest : List (Addr × Word)) (a : Nat) (h : m.wf) :
    (lastLoaded ((addr, w) :: rest) a).getD (m.readWord a) =
      (lastLoaded rest a).getD ((m.writeWord addr.toNat w).readWord a) := by
  rw [Memory.readWord_writeWord _ _ _ h, lastLoaded, Option.getD_or]
  split <;> rfl

section Load
variable {s : State} {addr : Addr} {w : Word} {q : List HostOp}

theorem State.faulted_of_oldest {op : HostOp} (r : FaultRecord) (hq : s.hostOps = op :: q) :
    s.faulted r = { s with fault := some r, hostOps := q, reply := .nothing } := by
  simp [State.faulted, State.retire, hq]

theorem State.loaded_of_oldest {op : HostOp} (addr : Addr) (w : Word) (hq : s.hostOps = op :: q) :
    s.loaded addr w = { s with mem := s.mem.writeWord addr.toNat w, hostOps := q, reply := .nothing } := by
  simp [State.loaded, State.retire, hq]

/-- A LOAD outside the memory (R44). -/
theorem stepWith_load_range (cfg : Config) (hf : s.fault = none) (hq : s.hostOps = .load addr w :: q)
    (hi : s.init = true) (ha : memSize ≤ addr.toNat) : stepWith cfg s = .next (s.faulted (.loadRange addr)) := by
  rw [stepWith_load hf hq, performLoad_loadRange w hi ha]

/-- A LOAD that completes (R43). -/
theorem stepWith_load_completes (cfg : Config) (hf : s.fault = none) (hq : s.hostOps = .load addr w :: q)
    (hi : s.init = true) (ha : addr.toNat < memSize) : stepWith cfg s = .next (s.loaded addr w) := by
  rw [stepWith_load hf hq, performLoad_completes w hi ha]

end Load

/-- Every transition keeps the canonical form of `MEM`, whatever `OUT` holds. -/
theorem stepWith_keeps_wf {cfg : Config} {s t : State} (hm : s.mem.wf) (h : stepWith cfg s = .next t) : t.mem.wf := by
  obtain kept | ⟨q, -, rfl⟩ | ⟨a, w, q, -, ha, rfl⟩ | ⟨c, -, rfl⟩ := stepWith_next_writes h
  · exact kept.mem ▸ hm
  · exact Memory.wf_cleared
  · exact Memory.wf_writeWord w hm ha
  · exact hm

/-! ### The contracts of loader and host -/

/-- The loader's invariant holds of the memory INIT leaves: every word is `0x0000`, whose jump is 0. -/
theorem JumpsInRange.cleared (cfg : Config) : JumpsInRange cfg Memory.cleared := by
  intro a _
  rw [Memory.readWord_cleared, jumpOf_decode]
  decide

/-- The loader's invariant is kept by writing a word whose jump is an address. -/
theorem JumpsInRange.writeWord {cfg : Config} {m : Memory} {w : Word} (addr : Nat) (h : JumpsInRange cfg m)
    (hm : m.wf) (hw : (jumpOf (decode cfg.selLayout w)).toNat < memSize) : JumpsInRange cfg (m.writeWord addr w) := by
  intro a ha
  rw [Memory.readWord_writeWord _ _ _ hm]
  split
  · exact hw
  · exact h a ha

theorem keepsContract_load {cfg : Config} {addr : Addr} {w : Word} : keepsContract cfg (.load addr w) = true ↔
    addr.toNat < memSize ∧ (jumpOf (decode cfg.selLayout w)).toNat < memSize := by
  simp [keepsContract]

theorem keepsContract_encode {cfg : Config} {i : RawInstr} :
    keepsContract cfg (.encode i) = true ↔ i.fits cfg.selLayout = true := Iff.rfl

theorem keepsContract_eval {cfg : Config} {inv : Bool} {sel : Nat} {inp : Inputs} :
    keepsContract cfg (.eval inv sel inp) = true ↔ sel ≤ 7 := by
  simp [keepsContract]

/-- The increment never leaves the memory (R124), so the new `PC` is an address where the jump is one. -/
theorem nextPc_lt {jump : Addr} (c : Bool) (pc : Addr) (hj : jump.toNat < memSize) :
    (nextPc c jump pc).toNat < memSize := by
  cases c with
  | true => exact hj
  | false =>
    rw [nextPc_not_taken, BitVec.toNat_ofNat]
    simp only [memSize]
    omega

/-! ### Safe states -/

section Safe
variable {cfg : Config} {s t : State}

/-- From a safe state no operation raises a fault: each fault's condition (R150) is excluded by a contract, by `INIT` or
by `PC`. -/
theorem State.Safe.next_not_faulted (hs : s.Safe cfg) (h : stepWith cfg s = .next t) : t.fault = none := by
  obtain ⟨hf, hi, hp, -, hops⟩ := hs
  have contract {op : HostOp} {q : List HostOp} (hq : s.hostOps = op :: q) : keepsContract cfg op = true :=
    hops op (by simp [hq])
  obtain ⟨-, ⟨-, rfl⟩ | ⟨q, -, rfl⟩ | ⟨a, w, q, hq, h⟩ | ⟨c, hc, h⟩ | ⟨w, q, -, rfl⟩ | ⟨i, q, hq, h⟩ |
    ⟨inv, sel, inp, q, hq, h⟩⟩ := stepWith_next h
  · exact hf
  · exact hf
  · rw [performLoad_completes w hi (keepsContract_load.mp (contract hq)).1] at h
    cases h
    exact hf
  · rw [stepInstr_completes _ hf hc hi hp] at h
    cases h
    exact hf
  · exact hf
  · rw [performEncode_ok s (encodeRaw_of_fits (keepsContract_encode.mp (contract hq)))] at h
    cases h
    exact hf
  · obtain ⟨c, -, rfl⟩ | ⟨hsel, -, -⟩ := performEval_next h
    · exact hf
    · exact absurd (keepsContract_eval.mp (contract hq)) (Nat.not_le.mpr hsel)

/-- A transition from a safe state leaves `PC` at an address: a taken branch goes to the jump of a word of `MEM`, which
the loader's invariant bounds (R45, R177). -/
theorem State.Safe.next_pc (hs : s.Safe cfg) (h : stepWith cfg s = .next t) : t.pc.toNat < memSize := by
  obtain ⟨-, -, hp, hj, -⟩ := hs
  obtain kept | ⟨q, -, rfl⟩ | ⟨a, w, q, -, -, rfl⟩ | ⟨c, -, rfl⟩ := stepWith_next_writes h
  · exact kept.pc ▸ hp
  · exact (by decide : (0 : Addr).toNat < memSize)
  · exact hp
  · exact nextPc_lt c s.pc (hj s.pc.toNat hp)

/-- The loader's invariant is kept: `MEM` is cleared, or one word that keeps its contract is written, or nothing is. -/
theorem State.Safe.next_jumpsInRange (hs : s.Safe cfg) (hm : s.mem.wf) (h : stepWith cfg s = .next t) :
    JumpsInRange cfg t.mem := by
  obtain ⟨-, -, -, hj, hops⟩ := hs
  obtain kept | ⟨q, -, rfl⟩ | ⟨a, w, q, hq, -, rfl⟩ | ⟨c, -, rfl⟩ := stepWith_next_writes h
  · exact kept.mem ▸ hj
  · exact JumpsInRange.cleared cfg
  · have hw := (keepsContract_load.mp (hops (.load a w) (by simp [hq]))).2
    exact hj.writeWord a.toNat hm hw
  · exact hj

/-- A transition from a safe state leads to a safe state. -/
theorem State.Safe.next (hs : s.Safe cfg) (hm : s.mem.wf) (h : stepWith cfg s = .next t) : t.Safe cfg := by
  have ⟨_, hi, _, _, hops⟩ := hs
  refine ⟨hs.next_not_faulted h, stepWith_keeps_init hi h, hs.next_pc h, hs.next_jumpsInRange hm h, fun op hop => ?_⟩
  rw [stepWith_next_hostOps h] at hop
  exact hops op (List.mem_of_mem_tail hop)

/-- A predicate from which every state has a transition that keeps it holds at the end of a run of any length. -/
theorem run_completes_of_step {P : State → Prop} (hP : ∀ s, P s → ∃ t, stepWith cfg s = .next t ∧ P t) (k : Nat) :
    ∀ s, P s → ∃ t, (coreWith cfg).run k s = .next t ∧ P t := by
  induction k with
  | zero => exact fun s hs => ⟨s, run_zero cfg s, hs⟩
  | succ k ih =>
    intro s hs
    obtain ⟨s', hstep, hs'⟩ := hP s hs
    rw [run_succ k hstep]
    exact ih s' hs'

end Safe

end Sys2Proof.Machine
end

section
/-! Proofs of the family 20_memory.md: the theorems that settle its statements. -/

namespace Sys2Proof.Machine

/-- Settles O41: a safe state has a transition (`stepWith_answers`), which leads to a safe state, and
`run_completes_of_step` carries this along the run. -/
theorem safeRunsNeverFault : Obligations.SafeRunsNeverFault := by
  intro cfg s hm hs k
  refine run_completes_of_step (P := fun s => s.mem.wf ∧ s.Safe cfg) (fun s ⟨hm, hs⟩ => ?_) k s ⟨hm, hs⟩
  have ⟨hf, _⟩ := hs
  obtain ⟨t, ht⟩ := stepWith_answers cfg hf
  exact ⟨t, ht, stepWith_keeps_wf hm ht, hs.next hm ht⟩

/-- Settles O10, by what the STEP of a record can do: its two entry faults write `FAULT` only, and past the entry no
fault is raised. -/
theorem uwordAndUwordBFrame : Obligations.UwordAndUwordBFrame := by
  intro i s t h
  rw [exec_eq_stepInstr] at h
  obtain ⟨hf, c, -, ⟨-, rfl⟩ | ⟨-, -, rfl⟩ | ⟨-, -, rfl⟩⟩ := stepInstr_next h
  · exact ⟨fun _ => rfl, fun _ => rfl, rfl, rfl, rfl, .inr ⟨rfl, rfl⟩⟩
  · exact ⟨fun _ => rfl, fun _ => rfl, rfl, rfl, rfl, .inr ⟨rfl, rfl⟩⟩
  · exact ⟨fun _ => rfl, fun _ => rfl, rfl, rfl, rfl, .inl hf⟩

/-- Settles O25, one equation of LOAD for each clause, and the reads after `MemWrite` for the frame. -/
theorem loadOperation : Obligations.LoadOperation := by
  intro cfg s addr w q hm hq
  refine ⟨fun r => stepWith_stuck cfg, fun hf hi => ?_, fun hf hi ha => ?_, fun hf hi ha => ?_⟩
  · rw [stepWith_load_uninit cfg hf hq hi, State.faulted_of_oldest _ hq]
  · rw [stepWith_load_range cfg hf hq hi ha, State.faulted_of_oldest _ hq]
  · refine ⟨s.mem.writeWord addr.toNat w, ?_, Memory.readWord_writeWord_same _ w hm,
      fun a => Memory.readWord_writeWord_other _ w, fun k => Memory.readCell_writeWord_other _ w⟩
    rw [stepWith_load_completes cfg hf hq hi ha, State.loaded_of_oldest addr w hq]

/-- Settles O26, by induction on the list of LOADs: the first completes, and `lastLoaded_cons_getD` joins its word to
what the others leave. -/
theorem loadsLeaveTheLastWordWritten : Obligations.LoadsLeaveTheLastWordWritten := by
  intro cfg loads
  induction loads with
  | nil => exact fun s q hm hf hi _ hq => ⟨s, run_zero cfg s, hq, rfl, rfl, hi, hf, fun _ => rfl⟩
  | cons p rest ih =>
    obtain ⟨addr, w⟩ := p
    intro s q hm hf hi hrange hq
    obtain ⟨ha, hrest⟩ := List.forall_mem_cons.mp hrange
    obtain ⟨t, hrun, htq, hpc, hout, hinit, hfault, hmem⟩ :=
      ih (s.loaded addr w) q (Memory.wf_writeWord w hm ha) hf hi hrest (by simp [hq])
    refine ⟨t, ?_, htq, hpc, hout, hinit, hfault, fun a => ?_⟩
    · rw [List.length_cons, run_succ _ (stepWith_load_completes cfg hf hq hi ha), hrun]
    · rw [hmem a, State.loaded_mem, lastLoaded_cons_getD addr w rest a hm]

/-- Settles O32: the equation of each operation but ENCODE and EVAL names of the build only the layout. -/
theorem checksDecideEncodeAndEvalOnly : Obligations.ChecksDecideEncodeAndEvalOnly := by
  intro l s hencode heval
  cases hf : s.fault with
  | some r => rw [stepWith_stuck _ hf, stepWith_stuck _ hf]
  | none =>
    cases hq : s.hostOps with
    | nil => rw [stepWith_idle _ hf hq, stepWith_idle _ hf hq]
    | cons op q =>
      cases op with
      | init => rw [stepWith_init hf hq, stepWith_init hf hq]; rfl
      | load a w => rw [stepWith_load hf hq, stepWith_load hf hq]
      | step c =>
        have hc := conditionActive_step hq
        rw [stepWith_requested _ hf hc, stepWith_requested _ hf hc]; rfl
      | tick inp =>
        have hc := conditionActive_tick hq
        rw [stepWith_requested _ hf hc, stepWith_requested _ hf hc]; rfl
      | decode w => rw [stepWith_decode _ hf hq, stepWith_decode _ hf hq]; rfl
      | encode i => exact absurd hq (hencode i q)
      | eval inv sel inp => exact absurd hq (heval inv sel inp q)

end Sys2Proof.Machine
end

section
/-! Proofs of the family 30_encoding.md, the layer of facts: bit 15 under layout A and the memories that differ in it
alone, and the conditions a word of each layout can select. -/

namespace Sys2Proof.Machine

/-! ### Bit 15 of a layout A word -/

/-- DECODE reads no bit above bit 14 under layout A (R69): the mask is 1 in every bit that is read. -/
theorem decode_layoutA_masked (w : Word) : decode .layoutA (w &&& 0x7FFF) = decode .layoutA w := by
  simp only [decode, BitVec.extractLsb'_and, BitVec.getLsbD_and, Instr.uword.injEq]
  exact ⟨BitVec.and_allOnes, Bool.and_true _, Bool.and_true _, Bool.and_true _, Bool.and_true _, BitVec.and_allOnes,
    Bool.and_true _⟩

theorem or_bit15_masked (w : Word) : (w ||| 0x8000) &&& 0x7FFF = w &&& 0x7FFF := by
  rw [BitVec.and_or_distrib_right]
  exact BitVec.or_zero

theorem decode_layoutA_eq_of_masked_eq {w w' : Word} (h : w &&& 0x7FFF = w' &&& 0x7FFF) :
    decode .layoutA w = decode .layoutA w' := by
  rw [← decode_layoutA_masked w, h, decode_layoutA_masked]

theorem encodeRaw_eq_ok {cfg : Config} {r : RawInstr} {w : Word} (h : encodeRaw cfg r = .ok w) :
    w = packMasked cfg.selLayout r := by
  unfold encodeRaw at h
  split at h
  · cases h
  · exact (Except.ok.inj h).symm

/-- ENCODE places every field of layout A below bit 15 (R82). -/
theorem packMasked_layoutA_bit15 (r : RawInstr) : (packMasked .layoutA r).getLsbD 15 = false := by
  have field (v : Nat) {k n : Nat} (h : n + k ≤ 15) : (v % 2 ^ k) <<< n < 2 ^ 15 :=
    (Nat.shiftLeft_lt (Nat.mod_lt v (Nat.two_pow_pos k))).trans_le (Nat.pow_le_pow_right (by decide) (by omega))
  have low := Nat.or_lt_two_pow (Nat.or_lt_two_pow (Nat.or_lt_two_pow (Nat.or_lt_two_pow (Nat.or_lt_two_pow
    (field r.jump (k := 8) (n := 0) (by decide)) (field r.up (k := 1) (n := 8) (by decide)))
    (field r.down (k := 1) (n := 9) (by decide))) (field r.door (k := 1) (n := 10) (by decide)))
    (field r.clr (k := 1) (n := 11) (by decide))) (field r.sel (k := 2) (n := 12) (by decide))
  have word := Nat.or_lt_two_pow low (field r.inv (k := 1) (n := 14) (by decide))
  rw [packMasked, BitVec.getLsbD_ofNat]
  exact Bool.and_eq_false_imp.mpr fun _ => Nat.testBit_lt_two_pow word

/-- Two memories whose words differ at most in bit 15. -/
def Memory.AgreeBelowBit15 (m m' : Memory) : Prop := ∀ a, m.readWord a &&& 0x7FFF = m'.readWord a &&& 0x7FFF

theorem Memory.AgreeBelowBit15.refl (m : Memory) : m.AgreeBelowBit15 m := fun _ => rfl

theorem Memory.AgreeBelowBit15.writeWord {m m' : Memory} (h : m.AgreeBelowBit15 m') (hm : m.wf) (hm' : m'.wf)
    (addr : Nat) (w : Word) : (m.writeWord addr w).AgreeBelowBit15 (m'.writeWord addr w) := by
  intro a
  rw [Memory.readWord_writeWord _ _ _ hm, Memory.readWord_writeWord _ _ _ hm']
  split
  · rfl
  · exact h a

/-- `s` with another memory. -/
def State.withMem (s : State) (m : Memory) : State := { s with mem := m }

@[simp] theorem State.withMem_pc (s : State) (m : Memory) : (s.withMem m).pc = s.pc := rfl
@[simp] theorem State.withMem_mem (s : State) (m : Memory) : (s.withMem m).mem = m := rfl
@[simp] theorem State.withMem_out (s : State) (m : Memory) : (s.withMem m).out = s.out := rfl
@[simp] theorem State.withMem_init (s : State) (m : Memory) : (s.withMem m).init = s.init := rfl
@[simp] theorem State.withMem_fault (s : State) (m : Memory) : (s.withMem m).fault = s.fault := rfl
@[simp] theorem State.withMem_hostOps (s : State) (m : Memory) : (s.withMem m).hostOps = s.hostOps := rfl
@[simp] theorem State.withMem_reply (s : State) (m : Memory) : (s.withMem m).reply = s.reply := rfl
@[simp] theorem State.withMem_draws (s : State) (m : Memory) : (s.withMem m).draws = s.draws := rfl

theorem fetchInstr_withMem_layoutA {checks : Bool} {s : State} {m : Memory} (h : s.mem.AgreeBelowBit15 m) :
    fetchInstr ⟨.layoutA, checks⟩ (s.withMem m) = fetchInstr ⟨.layoutA, checks⟩ s :=
  (decode_layoutA_eq_of_masked_eq (h s.pc.toNat)).symm

section OtherMemory
variable {s t : State}

theorem stepInstr_keeps_mem {i : Instr} (h : stepInstr i s = .next t) : t.mem = s.mem := by
  obtain ⟨-, -, -, ⟨-, rfl⟩ | ⟨-, -, rfl⟩ | ⟨-, -, rfl⟩⟩ := stepInstr_next h <;> rfl

theorem performEncode_keeps_mem {cfg : Config} {i : RawInstr} (h : performEncode cfg i s = .next t) :
    t.mem = s.mem := by
  obtain ⟨w, -, rfl⟩ | ⟨f, v, -, rfl⟩ := performEncode_next h <;> rfl

theorem performEval_keeps_mem {cfg : Config} {inv : Bool} {sel : Nat} {inp : Inputs}
    (h : performEval cfg inv sel inp s = .next t) : t.mem = s.mem := by
  obtain ⟨c, -, rfl⟩ | ⟨-, -, rfl⟩ := performEval_next h <;> rfl

/-- The STEP of a record neither reads nor writes `MEM`. -/
theorem stepInstr_withMem {i : Instr} (m : Memory) (h : stepInstr i s = .next t) :
    stepInstr i (s.withMem m) = .next (t.withMem m) := by
  obtain ⟨hf, c, hc, ⟨hi, rfl⟩ | ⟨hi, hp, rfl⟩ | ⟨hi, hp, rfl⟩⟩ := stepInstr_next h
  · exact stepInstr_uninit (s := s.withMem m) i hf hc hi
  · exact stepInstr_pcRange (s := s.withMem m) i hf hc hi hp
  · exact stepInstr_completes (s := s.withMem m) i hf hc hi hp

theorem performEncode_withMem {cfg : Config} {i : RawInstr} (m : Memory) (h : performEncode cfg i s = .next t) :
    performEncode cfg i (s.withMem m) = .next (t.withMem m) := by
  obtain ⟨w, hw, rfl⟩ | ⟨f, v, hw, rfl⟩ := performEncode_next h
  · exact performEncode_ok (s.withMem m) hw
  · exact performEncode_error (s.withMem m) hw

theorem performEval_withMem {cfg : Config} {inv : Bool} {sel : Nat} {inp : Inputs} (m : Memory)
    (h : performEval cfg inv sel inp s = .next t) :
    performEval cfg inv sel inp (s.withMem m) = .next (t.withMem m) := by
  unfold performEval at h ⊢
  rw [State.withMem_draws]
  split at h
  · cases h; rfl
  · cases h; rfl

/-- LOAD writes the same word into either memory. -/
theorem performLoad_withMem {m : Memory} {addr : Addr} {w : Word} (hs : s.mem.wf) (hm : m.wf)
    (hsm : s.mem.AgreeBelowBit15 m) (h : performLoad addr w s = .next t) :
    ∃ m', performLoad addr w (s.withMem m) = .next (t.withMem m') ∧ t.mem.AgreeBelowBit15 m' := by
  obtain ⟨hi, rfl⟩ | ⟨hi, ha, rfl⟩ | ⟨hi, ha, rfl⟩ := performLoad_next h
  · exact ⟨m, performLoad_uninit (s := s.withMem m) addr w hi, hsm⟩
  · exact ⟨m, performLoad_loadRange (s := s.withMem m) w hi ha, hsm⟩
  · exact ⟨m.writeWord addr.toNat w, performLoad_completes (s := s.withMem m) w hi ha,
      hsm.writeWord hs hm addr.toNat w⟩

/-- Under layout A the transition from a memory that differs in bit 15 alone is the same but for the memory, and the
memories still differ in bit 15 alone (R69). -/
theorem stepWith_withMem_layoutA {m : Memory} {checks : Bool} (hs : s.mem.wf) (hm : m.wf)
    (hsm : s.mem.AgreeBelowBit15 m) (h : stepWith ⟨.layoutA, checks⟩ s = .next t) :
    ∃ m', stepWith ⟨.layoutA, checks⟩ (s.withMem m) = .next (t.withMem m') ∧ t.mem.AgreeBelowBit15 m' := by
  obtain ⟨hf, ⟨hq, rfl⟩ | ⟨q, hq, rfl⟩ | ⟨a, w, q, hq, h⟩ | ⟨c, hc, h⟩ | ⟨w, q, hq, rfl⟩ | ⟨i, q, hq, h⟩ |
    ⟨inv, sel, inp, q, hq, h⟩⟩ := stepWith_next h
  · exact ⟨m, stepWith_idle (s := t.withMem m) _ hf hq, hsm⟩
  · exact ⟨Memory.cleared, stepWith_init (s := s.withMem m) hf hq, .refl _⟩
  · rw [stepWith_load (s := s.withMem m) hf hq]
    exact performLoad_withMem hs hm hsm h
  · rw [stepWith_requested (s := s.withMem m) _ hf hc, fetchInstr_withMem_layoutA hsm]
    exact ⟨m, stepInstr_withMem m h, stepInstr_keeps_mem h ▸ hsm⟩
  · exact ⟨m, stepWith_decode (s := s.withMem m) _ hf hq, hsm⟩
  · rw [stepWith_encode (s := s.withMem m) _ hf hq]
    exact ⟨m, performEncode_withMem m h, performEncode_keeps_mem h ▸ hsm⟩
  · rw [stepWith_eval (s := s.withMem m) _ hf hq]
    exact ⟨m, performEval_withMem m h, performEval_keeps_mem h ▸ hsm⟩

end OtherMemory

/-! ### The conditions a word can select -/

/-- The selectors whose condition reads call inputs and nothing else (R100's table). -/
def callSelectors : List Selector := [.any, .below, .same, .above]

theorem selectorOf_mem_callSelectors {sel : BitVec 3} (h : sel.toNat ≤ 3) : selectorOf sel ∈ callSelectors := by
  unfold selectorOf
  generalize sel.toNat = n at h
  interval_cases n <;> decide

theorem rawCondition_eq_of_calls_eq {n : Selector} {inp inp' : Inputs} (hn : n ∈ callSelectors)
    (hbelow : inp.callBelow = inp'.callBelow) (hsame : inp.callSame = inp'.callSame)
    (habove : inp.callAbove = inp'.callAbove) : rawCondition inp n = rawCondition inp' n := by
  simp only [callSelectors, List.mem_cons, List.not_mem_nil, or_false] at hn
  obtain rfl | rfl | rfl | rfl := hn
  · simp only [rawCondition, hbelow, hsame, habove]
  · exact hbelow
  · exact hsame
  · exact habove

/-- Calls pending everywhere, the door in between. -/
def allCalls : Inputs := ⟨true, true, true, false, false⟩

theorem rawCondition_allCalls {n : Selector} (hn : n ∈ callSelectors) : rawCondition allCalls n = true := by
  revert n; decide

theorem rawCondition_noInputs (n : Selector) : rawCondition noInputs n = false := by
  cases n <;> rfl

/-- A call selector's condition takes either value, whatever the invert. -/
theorem exists_evaluate_eq {sel : BitVec 3} (inv b : Bool) (h : selectorOf sel ∈ callSelectors) :
    ∃ inp, evaluate inv sel inp = b := by
  by_cases hb : b = inv
  · exact ⟨noInputs, by rw [evaluate, rawCondition_noInputs, Bool.false_xor, hb]⟩
  · exact ⟨allCalls, by rw [evaluate, rawCondition_allCalls h, Bool.true_xor, Bool.eq_not.mpr hb]⟩

/-- Layout A's selector is two bits, extended by a zero (R68). -/
theorem selPort_decode_layoutA_le (w : Word) : (selPort (decode .layoutA w)).toNat ≤ 3 := by
  have := (w.extractLsb' 12 2).isLt
  simp only [selPort, decode, BitVec.truncate_eq_setWidth, BitVec.toNat_setWidth]
  omega

theorem invPort_decode_layoutB (w : Word) : invPort (decode .layoutB w) = w.getLsbD 15 := rfl

theorem evaluate_six_or_seven {sel : BitVec 3} (inv : Bool) (inp : Inputs) (h : sel = 6 ∨ sel = 7) :
    evaluate inv sel inp = inv := by
  obtain rfl | rfl := h <;> exact Bool.false_xor inv

end Sys2Proof.Machine
end

section
/-! Proofs of the family 30_encoding.md: the theorems that settle its statements about words and their records. -/

namespace Sys2Proof.Machine

/-- Settles O6, by `decode_layoutA_masked` with `or_bit15_masked`, `packMasked_layoutA_bit15`, the read after a LOAD, and
`stepWith_withMem_layoutA`. -/
theorem bit15OfLayoutAIsNoField : Obligations.Bit15OfLayoutAIsNoField := by
  refine ⟨fun w => ?_, fun checks r w h => ?_, fun checks s t addr w q hm hi ha hq h => ?_,
    fun checks s t m hs hm hsm h => ?_⟩
  · rw [← decode_layoutA_masked, or_bit15_masked]
  · rw [encodeRaw_eq_ok h]
    exact packMasked_layoutA_bit15 r
  · rw [stepWith_load_completes _ (stepWith_next_not_faulted h) hq hi ha] at h
    cases h
    exact Memory.readWord_writeWord_same addr.toNat w hm
  · obtain ⟨m', h', agree⟩ := stepWith_withMem_layoutA hs hm hsm h
    exact ⟨t.withMem m', h', rfl, agree⟩

/-- Settles O7: DECODE always gives a record of its layout, and past the entry a STEP or TICK leaves the stepped state,
whose `FAULT` is as before. -/
theorem noWordIsIllegal : Obligations.NoWordIsIllegal :=
  ⟨fun l w _ => ⟨decode l w, rfl, decode_ofLayout l w⟩,
    fun _ _ _ hf hc hi hp => ⟨_, stepWith_completes hf hc hi hp, hf⟩⟩

/-- Settles O22: layout A's selector is at most 3, so it is one of the four call selectors. -/
theorem layoutAConditionsReadTheCallsOnly : Obligations.LayoutAConditionsReadTheCallsOnly := by
  intro w
  have hsel := selPort_decode_layoutA_le w
  have hcall := selectorOf_mem_callSelectors hsel
  refine ⟨hsel, fun inp inp' hbelow hsame habove => ?_, exists_evaluate_eq _ true hcall,
    exists_evaluate_eq _ false hcall⟩
  simp only [evaluate, rawCondition_eq_of_calls_eq hcall hbelow hsame habove]

/-- Settles O23: layout A's selector is at most 3, `0x6000` and `0x7000` hold 6 and 7 under layout B, and both select
false. -/
theorem selectorsSixAndSevenAreConstantFalse : Obligations.SelectorsSixAndSevenAreConstantFalse := by
  refine ⟨fun w => ?_, ⟨0x6000, by decide⟩, ⟨0x7000, by decide⟩, fun w inp h => ?_⟩
  · have hsel := selPort_decode_layoutA_le w
    constructor <;> intro h <;> rw [h] at hsel <;> exact absurd hsel (by decide)
  · rw [evaluate_six_or_seven _ inp h, invPort_decode_layoutB]

/-- Settles O1: each of the words decodes by evaluation. -/
theorem sampleWordsDecodeAsTheTableSays : Obligations.SampleWordsDecodeAsTheTableSays := by
  unfold Obligations.SampleWordsDecodeAsTheTableSays
  decide

/-- Settles O8: `exec` is the STEP of its record, which past the entry leaves the stepped state. -/
theorem uwordAndUwordBComplete : Obligations.UwordAndUwordBComplete := by
  intro s c hf hc hi hp
  have completes (i : Instr) : exec i s = .next (s.stepped c i) := by
    rw [exec_eq_stepInstr, stepInstr_completes i hf hc hi hp]
  exact ⟨fun jump up down door clr sel inv => completes (.uword jump up down door clr sel inv),
    fun jump up down door clr sel inv => completes (.uwordB jump up down door clr sel inv)⟩

end Sys2Proof.Machine
end

section
/-! Proofs of the family 30_encoding.md, the layer of facts about the assembler lines of R74: the record a line stands for
and its word, and the words of a line's text, which are read back one by one. -/

namespace Sys2Proof.Machine

/-! ### The word of a record -/

/-- The table's pattern of bits as a number, each field at its place (R62). -/
theorem encode_uword_toNat (jump : Addr) (up down door clr : Bool) (sel : BitVec 2) (inv : Bool) :
    (encode (.uword jump up down door clr sel inv)).toNat =
      jump.toNat ||| up.toNat <<< 8 ||| down.toNat <<< 9 ||| door.toNat <<< 10 ||| clr.toNat <<< 11 |||
        sel.toNat <<< 12 ||| inv.toNat <<< 14 := by
  change BitVec.toNat (w := 1 + 1 + 2 + 1 + 1 + 1 + 1 + 8) (_ ++ _) = _
  simp only [BitVec.toNat_append, BitVec.toNat_ofBool, BitVec.toNat_ofNat, Nat.shiftLeft_or_distrib,
    ← Nat.shiftLeft_add, Nat.zero_mod, Nat.zero_shiftLeft, Nat.zero_or]
  ac_rfl

theorem encode_uwordB_toNat (jump : Addr) (up down door clr : Bool) (sel : BitVec 3) (inv : Bool) :
    (encode (.uwordB jump up down door clr sel inv)).toNat =
      jump.toNat ||| up.toNat <<< 8 ||| down.toNat <<< 9 ||| door.toNat <<< 10 ||| clr.toNat <<< 11 |||
        sel.toNat <<< 12 ||| inv.toNat <<< 15 := by
  change BitVec.toNat (w := 1 + 3 + 1 + 1 + 1 + 1 + 8) (_ ++ _) = _
  simp only [BitVec.toNat_append, BitVec.toNat_ofBool, Nat.shiftLeft_or_distrib, ← Nat.shiftLeft_add]
  ac_rfl

/-- ENCODE as R82 composes it gives the table's pattern of bits, since every field of a record has its width. -/
theorem packMasked_toRaw (i : Instr) : packMasked i.layout i.toRaw = encode i := by
  have bit (b : Bool) : b.toNat % 2 = b.toNat := Nat.mod_eq_of_lt b.toNat_lt
  refine BitVec.eq_of_toNat_eq ?_
  rw [← Nat.mod_eq_of_lt (encode i).isLt]
  cases i with
  | uword jump up down door clr sel inv =>
    rw [encode_uword_toNat]
    simp only [packMasked, Instr.layout, Instr.toRaw, selWidth, BitVec.toNat_ofNat, bit,
      show jump.toNat % 256 = jump.toNat from Nat.mod_eq_of_lt jump.isLt, Nat.mod_eq_of_lt sel.isLt]
  | uwordB jump up down door clr sel inv =>
    rw [encode_uwordB_toNat]
    simp only [packMasked, Instr.layout, Instr.toRaw, selWidth, BitVec.toNat_ofNat, bit,
      show jump.toNat % 256 = jump.toNat from Nat.mod_eq_of_lt jump.isLt, Nat.mod_eq_of_lt sel.isLt]

/-- The fields of any record fit its layout (R12). -/
theorem toRaw_fits (i : Instr) : i.toRaw.fits i.layout = true := by
  cases i with
  | uword jump up down door clr sel inv => exact Laws.FieldsFit.uword jump up down door clr sel inv
  | uwordB jump up down door clr sel inv => exact Laws.FieldsFit.uwordB jump up down door clr sel inv

theorem encodeRaw_toRaw {cfg : Config} {i : Instr} (h : i.ofLayout cfg.selLayout = true) :
    encodeRaw cfg i.toRaw = .ok (encode i) := by
  have hl : i.layout = cfg.selLayout := of_decide_eq_true h
  rw [encodeRaw_of_fits (hl ▸ toRaw_fits i), ← hl, packMasked_toRaw]

/-! ### The record a line stands for -/

/-- The number of the operand of `sel=`: as it is written, 0 where it is absent, and its place in R74's list of names. -/
theorem asmSelNumber_eq {operand : Option AsmSel} {sel : Nat}
    (h : operand = some (.number sel) ∨ (operand = none ∧ sel = 0) ∨ ∃ name, operand = some (.name name) ∧
      (name, sel) ∈ [(Selector.any, 0), (.below, 1), (.same, 2), (.above, 3), (.closed, 4), (.opened, 5),
        (.rsvd, 6), (.never, 7)]) : asmSelNumber operand = sel := by
  obtain rfl | ⟨rfl, rfl⟩ | ⟨name, rfl, hmem⟩ := h
  · rfl
  · rfl
  · have named : ∀ p ∈ [(Selector.any, 0), (.below, 1), (.same, 2), (.above, 3), (.closed, 4), (.opened, 5), (.rsvd, 6),
        (.never, 7)], selectorNumber p.1 = p.2 := by decide
    exact named _ hmem

theorem two_pow_selWidth (l : SelLayout) : 2 ^ selWidth l = if l = .layoutA then 4 else 8 := by
  cases l <;> rfl

section Line
variable {l : SelLayout} {jump : Option Nat} {operand : Option AsmSel} (up down door clr inv : Bool)

/-- A line whose numbers fit stands for the record of its fields. -/
theorem assemble_select_ok (hj : jump.getD 0 ≤ 255) (hs : asmSelNumber operand < 2 ^ selWidth l) :
    ∃ i, assemble l (.uword jump up down door clr (.select operand inv)) = .ok i ∧ i.ofLayout l = true ∧
      i.toRaw = ⟨jump.getD 0, up.toNat, down.toNat, door.toNat, clr.toNat, asmSelNumber operand, inv.toNat⟩ := by
  have hjump : (BitVec.ofNat 8 (jump.getD 0)).toNat = jump.getD 0 := Nat.mod_eq_of_lt (Nat.lt_succ_of_le hj)
  cases l with
  | layoutA =>
    have hsel : (BitVec.ofNat 2 (asmSelNumber operand)).toNat = asmSelNumber operand := Nat.mod_eq_of_lt hs
    refine ⟨.uword (.ofNat 8 (jump.getD 0)) up down door clr (.ofNat 2 (asmSelNumber operand)) inv, ?_, rfl, ?_⟩
    · simp [assemble, asmCondition, Nat.not_lt.mpr hj, Nat.not_le.mpr hs]
    · rw [Instr.toRaw, hjump, hsel]
  | layoutB =>
    have hsel : (BitVec.ofNat 3 (asmSelNumber operand)).toNat = asmSelNumber operand := Nat.mod_eq_of_lt hs
    refine ⟨.uwordB (.ofNat 8 (jump.getD 0)) up down door clr (.ofNat 3 (asmSelNumber operand)) inv, ?_, rfl, ?_⟩
    · simp [assemble, asmCondition, Nat.not_lt.mpr hj, Nat.not_le.mpr hs]
    · rw [Instr.toRaw, hjump, hsel]

/-- A line with a number that does not fit is no line of R74. -/
theorem assemble_select_error (h : ¬ (jump.getD 0 ≤ 255 ∧ asmSelNumber operand < 2 ^ selWidth l)) :
    ∃ e, assemble l (.uword jump up down door clr (.select operand inv)) = .error e := by
  by_cases hj : jump.getD 0 ≤ 255
  · have hs : 2 ^ selWidth l ≤ asmSelNumber operand := Nat.le_of_not_lt fun hs => h ⟨hj, hs⟩
    exact ⟨.selRange (asmSelNumber operand), by simp [assemble, asmCondition, Nat.not_lt.mpr hj, hs]⟩
  · exact ⟨.jumpRange (jump.getD 0), by simp [assemble, asmCondition, Nat.lt_of_not_le hj]⟩

end Line

/-! ### The words of a line's text -/

/-- A keyword of the text, where it is written. -/
def keywordWords (written : Bool) (k : String) : List (List Char) := if written then [k.toList] else []

/-- The word `jump=<n>`, where it is written. -/
def jumpWords : Option Nat → List (List Char)
  | none => []
  | some n => ["jump=".toList ++ Nat.toDigits 10 n]

/-- What stands after `sel=`. -/
def operandWord : AsmSel → List Char
  | .name n => (selectorName n).toList
  | .number n => Nat.toDigits 10 n

/-- The words of a condition. -/
def condWords : AsmCond → List (List Char)
  | .select none inv => keywordWords inv "INV"
  | .select (some operand) inv => ("sel=".toList ++ operandWord operand) :: keywordWords inv "INV"
  | .condTrue => ["cond=TRUE".toList]
  | .condFalse => ["cond=FALSE".toList]

/-- The words after `UWORD` and its `jump=`. -/
def flagWords (up down door clr : Bool) (cond : AsmCond) : List (List Char) :=
  keywordWords up "UP" ++ (keywordWords down "DOWN" ++ (keywordWords door "DOOR" ++
    (keywordWords clr "CLR" ++ condWords cond)))

/-- Words, each with the space before it. -/
def spaced (ws : List (List Char)) : List Char := ws.flatMap fun w => ' ' :: w

theorem spaced_append (ws ws' : List (List Char)) : spaced (ws ++ ws') = spaced ws ++ spaced ws' :=
  List.flatMap_append

theorem spaced_cons (w : List Char) (ws : List (List Char)) : spaced (w :: ws) = ' ' :: w ++ spaced ws :=
  List.flatMap_cons

theorem keyword_toList (written : Bool) (k : String) :
    (if written then " " ++ k else "").toList = spaced (keywordWords written k) := by
  cases written <;> simp [spaced, keywordWords]

theorem asmCondText_toList (cond : AsmCond) : (asmCondText cond).toList = spaced (condWords cond) := by
  have inv_toList (inv : Bool) : (if inv then " INV" else "").toList = spaced (keywordWords inv "INV") :=
    keyword_toList inv "INV"
  match cond with
  | .select none inv => exact inv_toList inv
  | .select (some (.name n)) inv => simp [asmCondText, condWords, operandWord, inv_toList, spaced]
  | .select (some (.number n)) inv => simp [asmCondText, condWords, operandWord, inv_toList, spaced]
  | .condTrue => rfl
  | .condFalse => rfl

theorem asmText_uword_toList (jump : Option Nat) (up down door clr : Bool) (cond : AsmCond) :
    (asmText (.uword jump up down door clr cond)).toList =
      "UWORD".toList ++ spaced (jumpWords jump ++ flagWords up down door clr cond) := by
  have hup : (if up then " UP" else "").toList = spaced (keywordWords up "UP") := keyword_toList up "UP"
  have hdown : (if down then " DOWN" else "").toList = spaced (keywordWords down "DOWN") := keyword_toList down "DOWN"
  have hdoor : (if door then " DOOR" else "").toList = spaced (keywordWords door "DOOR") := keyword_toList door "DOOR"
  have hclr : (if clr then " CLR" else "").toList = spaced (keywordWords clr "CLR") := keyword_toList clr "CLR"
  cases jump with
  | none =>
    simp [asmText, hup, hdown, hdoor, hclr, asmCondText_toList, flagWords, jumpWords, spaced_append]
  | some n =>
    simp [asmText, hup, hdown, hdoor, hclr, asmCondText_toList, flagWords, jumpWords, spaced_append, spaced_cons]

/-- A text written from words without spaces is read as those words. -/
theorem asmWords_spaced {w : List Char} {ws : List (List Char)} (hw : ' ' ∉ w) (hws : ∀ v ∈ ws, ' ' ∉ v) :
    asmWords (w ++ spaced ws) = w :: ws := by
  induction ws generalizing w with
  | nil => simpa [spaced] using asmWords_of_no_space hw
  | cons v ws ih =>
    obtain ⟨hv, hws⟩ := List.forall_mem_cons.mp hws
    rw [spaced, List.flatMap_cons, List.cons_append, asmWords_append_space hw]
    exact congrArg (w :: ·) (ih hv hws)

/-! ### The words read back -/

theorem forall_mem_keywordWords {P : List Char → Prop} {written : Bool} {k : String} (h : P k.toList) :
    ∀ w ∈ keywordWords written k, P w := by
  cases written <;> simp [keywordWords, h]

theorem forall_mem_condWords {P : List Char → Prop} {cond : AsmCond} (hinv : P "INV".toList)
    (hsel : ∀ operand, P ("sel=".toList ++ operandWord operand)) (htrue : P "cond=TRUE".toList)
    (hfalse : P "cond=FALSE".toList) : ∀ w ∈ condWords cond, P w := by
  match cond with
  | .select none inv => exact forall_mem_keywordWords hinv
  | .select (some operand) inv => exact List.forall_mem_cons.mpr ⟨hsel operand, forall_mem_keywordWords hinv⟩
  | .condTrue => exact List.forall_mem_singleton.mpr htrue
  | .condFalse => exact List.forall_mem_singleton.mpr hfalse

section Flags
variable {up down door clr : Bool} {cond : AsmCond}

theorem forall_mem_flagWords {P : List Char → Prop} (hup : P "UP".toList) (hdown : P "DOWN".toList)
    (hdoor : P "DOOR".toList) (hclr : P "CLR".toList) (hcond : ∀ w ∈ condWords cond, P w) :
    ∀ w ∈ flagWords up down door clr cond, P w := by
  simp only [flagWords, List.forall_mem_append]
  exact ⟨forall_mem_keywordWords hup, forall_mem_keywordWords hdown, forall_mem_keywordWords hdoor,
    forall_mem_keywordWords hclr, hcond⟩

/-- The first letters of a condition's words are those of no flag. -/
theorem head_of_mem_condWords : ∀ w ∈ condWords cond, w.head? ∈ [some 'I', some 's', some 'c'] :=
  forall_mem_condWords (by decide) (fun _ => by simp) (by decide) (by decide)

theorem head_of_mem_flagWords : ∀ w ∈ flagWords up down door clr cond,
    w.head? ∈ [some 'U', some 'D', some 'C', some 'I', some 's', some 'c'] :=
  forall_mem_flagWords (by decide) (by decide) (by decide) (by decide) fun w hw =>
    List.mem_append_right [some 'U', some 'D', some 'C'] (head_of_mem_condWords w hw)

theorem space_not_mem_operandWord (operand : AsmSel) : ' ' ∉ operandWord operand := by
  cases operand with
  | name n => cases n <;> decide
  | number n => exact space_not_mem_toDigits n

theorem space_not_mem_of_mem_flagWords : ∀ w ∈ flagWords up down door clr cond, ' ' ∉ w :=
  forall_mem_flagWords (by decide) (by decide) (by decide) (by decide) <|
    forall_mem_condWords (by decide)
      (fun operand => by simpa using space_not_mem_operandWord operand) (by decide) (by decide)

theorem takeKeyword_keywordWords (written : Bool) (k : String) {ws : List (List Char)} (h : k.toList ∉ ws) :
    takeKeyword k (keywordWords written k ++ ws) = (written, ws) := by
  cases written with
  | false => exact takeKeyword_absent fun hk => h (List.mem_of_mem_head? hk)
  | true => exact takeKeyword_present k ws

theorem asmSelOperand_operandWord (operand : AsmSel) : asmSelOperand (operandWord operand) = some operand := by
  cases operand with
  | name n => exact asmSelOperand_name n
  | number n => exact asmSelOperand_number n

theorem parseCond_condWords (cond : AsmCond) : parseCond (condWords cond) = some cond := by
  match cond with
  | .select none false => rfl
  | .select none true => decide
  | .select (some operand) inv =>
    have hinv : takeKeyword "INV" (keywordWords inv "INV") = (inv, []) := by
      simpa using takeKeyword_keywordWords inv "INV" (ws := []) (by simp)
    rw [condWords, parseCond, if_neg (by simp), if_neg (by simp), afterKey_append]
    simp only [asmSelOperand_operandWord, hinv]
  | .condTrue => decide
  | .condFalse => decide

theorem parseFlags_flagWords (jump : Option Nat) (up down door clr : Bool) (cond : AsmCond) :
    parseFlags jump (flagWords up down door clr cond) = some (.uword jump up down door clr cond) := by
  have absent {k : String} (hk : k.toList.head? ∉ [some 'I', some 's', some 'c']) : k.toList ∉ condWords cond :=
    fun h => hk (head_of_mem_condWords _ h)
  have other {written : Bool} {k k' : String} (hk : k.toList ≠ k'.toList) : k.toList ∉ keywordWords written k' :=
    fun h => forall_mem_keywordWords (P := (k.toList ≠ ·)) hk _ h rfl
  have hclr : "CLR".toList ∉ condWords cond := absent (by decide)
  have hdoor : "DOOR".toList ∉ keywordWords clr "CLR" ++ condWords cond :=
    List.not_mem_append (other (by decide)) (absent (by decide))
  have hdown : "DOWN".toList ∉ keywordWords door "DOOR" ++ (keywordWords clr "CLR" ++ condWords cond) :=
    List.not_mem_append (other (by decide)) (List.not_mem_append (other (by decide)) (absent (by decide)))
  have hup : "UP".toList ∉
      keywordWords down "DOWN" ++ (keywordWords door "DOOR" ++ (keywordWords clr "CLR" ++ condWords cond)) :=
    List.not_mem_append (other (by decide)) (List.not_mem_append (other (by decide))
      (List.not_mem_append (other (by decide)) (absent (by decide))))
  simp only [parseFlags, flagWords, takeKeyword_keywordWords _ _ hup, takeKeyword_keywordWords _ _ hdown,
    takeKeyword_keywordWords _ _ hdoor, takeKeyword_keywordWords _ _ hclr, parseCond_condWords, Option.map_some]

end Flags

/-- A text whose words have no space and at least one letter is taken apart into these words. -/
theorem filter_asmWords {text : String} {w : List Char} {ws : List (List Char)}
    (htext : text.toList = w ++ spaced ws) (hspace : ∀ v ∈ w :: ws, ' ' ∉ v) (hne : ∀ v ∈ w :: ws, v ≠ []) :
    (asmWords text.toList).filter (fun v => !v.isEmpty) = w :: ws := by
  obtain ⟨hw, hws⟩ := List.forall_mem_cons.mp hspace
  rw [htext, asmWords_spaced hw hws]
  exact List.filter_eq_self.mpr fun v hv => by simpa using hne v hv

theorem asmParse_jump {text : String} {n : Nat} {ws : List (List Char)}
    (h : (asmWords text.toList).filter (fun v => !v.isEmpty) =
      "UWORD".toList :: ("jump=".toList ++ Nat.toDigits 10 n) :: ws) : asmParse text = parseFlags (some n) ws := by
  simp only [asmParse, h]
  rw [if_neg (by decide), if_neg (not_not.mpr rfl), afterKey_append]
  simp only [asmNumber_toDigits, Option.bind_some]

theorem asmParse_no_jump {text : String} {ws : List (List Char)}
    (h : (asmWords text.toList).filter (fun v => !v.isEmpty) = "UWORD".toList :: ws)
    (hjump : ∀ w ∈ ws, w.head? ≠ some 'j') : asmParse text = parseFlags none ws := by
  simp only [asmParse, h]
  rw [if_neg (by decide), if_neg (not_not.mpr rfl)]
  cases ws with
  | nil => rfl
  | cons w rest =>
    have hnone : afterKey "jump=".toList w = none := by
      refine Option.eq_none_iff_forall_ne_some.mpr fun operand ho => hjump w (List.mem_cons_self ..) ?_
      rw [afterKey_eq_some.mp ho]
      rfl
    simp only [hnone]

/-- The text of a line that begins with `UWORD` is read back as the line. -/
theorem asmParse_asmText_uword (jump : Option Nat) (up down door clr : Bool) (cond : AsmCond) :
    asmParse (asmText (.uword jump up down door clr cond)) = some (.uword jump up down door clr cond) := by
  have heads := head_of_mem_flagWords (up := up) (down := down) (door := door) (clr := clr) (cond := cond)
  have spaces := space_not_mem_of_mem_flagWords (up := up) (down := down) (door := door) (clr := clr) (cond := cond)
  have nonempty : ∀ w ∈ flagWords up down door clr cond, w ≠ [] := by
    rintro _ hw rfl
    exact absurd (heads _ hw) (by decide)
  have htext := asmText_uword_toList jump up down door clr cond
  rw [← parseFlags_flagWords]
  cases jump with
  | none =>
    refine asmParse_no_jump (filter_asmWords htext ?_ ?_) fun w hw hj => ?_
    · exact List.forall_mem_cons.mpr ⟨by decide, spaces⟩
    · exact List.forall_mem_cons.mpr ⟨by decide, nonempty⟩
    · exact absurd (hj ▸ heads w hw) (by decide)
  | some n =>
    refine asmParse_jump (filter_asmWords htext ?_ ?_)
    · exact List.forall_mem_cons.mpr ⟨by decide, List.forall_mem_cons.mpr ⟨by simp [space_not_mem_toDigits], spaces⟩⟩
    · exact List.forall_mem_cons.mpr ⟨by decide, List.forall_mem_cons.mpr ⟨by simp, nonempty⟩⟩

end Sys2Proof.Machine
end

section
/-! Proofs of the family 30_encoding.md: the theorems that settle its statements about the assembler lines of R74. -/

namespace Sys2Proof.Machine

/-- Settles O44: a line whose numbers fit stands for the record of its fields (`assemble_select_ok`), whose word is
`encodeRaw_toRaw`'s; the other clauses evaluate. -/
theorem assemblerLinesStandForTheirWords : Obligations.AssemblerLinesStandForTheirWords := by
  refine ⟨fun l jump operand sel up down door clr inv hsel => ?_, fun l => ?_, fun jump up down door clr => ?_⟩
  · obtain rfl := asmSelNumber_eq hsel
    rw [← two_pow_selWidth]
    refine ⟨fun ⟨hj, hs⟩ => ?_, assemble_select_error up down door clr inv⟩
    obtain ⟨i, hi, hl, hraw⟩ := assemble_select_ok up down door clr inv hj hs
    exact ⟨i, hi, hl, hraw ▸ encodeRaw_toRaw (cfg := ⟨l, true⟩) hl⟩
  · cases l with
    | layoutA => exact ⟨_, rfl, by decide, rfl⟩
    | layoutB => exact ⟨_, rfl, by decide, rfl⟩
  · exact ⟨rfl, rfl, ⟨.layoutBOnly, rfl⟩, ⟨.layoutBOnly, rfl⟩⟩

/-- Settles O45: `ZERO` and every line that begins with `UWORD` are read back from their words; the spellings evaluate. -/
theorem assemblerTextReadsBackAsItsLine : Obligations.AssemblerTextReadsBackAsItsLine := by
  refine ⟨fun line => ?_, by decide⟩
  cases line with
  | zero => decide
  | uword jump up down door clr cond => exact asmParse_asmText_uword jump up down door clr cond

end Sys2Proof.Machine
end

section
/-! Proofs of the family 40_decoder.md, the layer of facts: a word as its fields side by side, the records DECODE and
ENCODE lead between, and what the check of R83 and the packing of R82 answer. -/

namespace Sys2Proof.Machine

/-! ### A word as its fields side by side -/

/-- The fields both layouts place alike (R62, R63), below the four bits the layouts divide differently. -/
def wordOfFields (top : BitVec 4) (up down door clr : Bool) (jump : Addr) : Word :=
  top ++ BitVec.ofBool clr ++ BitVec.ofBool door ++ BitVec.ofBool down ++ BitVec.ofBool up ++ jump

section Fields
variable (top : BitVec 4) (up down door clr inv : Bool) (jump : Addr)

theorem encode_uword_eq_wordOfFields (sel : BitVec 2) : encode (.uword jump up down door clr sel inv) =
    wordOfFields (0#1 ++ BitVec.ofBool inv ++ sel) up down door clr jump := rfl

theorem encode_uwordB_eq_wordOfFields (sel : BitVec 3) : encode (.uwordB jump up down door clr sel inv) =
    wordOfFields (BitVec.ofBool inv ++ sel) up down door clr jump := rfl

@[simp] theorem wordOfFields_jump : (wordOfFields top up down door clr jump).extractLsb' 0 8 = jump :=
  BitVec.extractLsb'_append_eq_right

theorem wordOfFields_bit (n : Nat) : (wordOfFields top up down door clr jump).getLsbD (n + 8) =
    match n with | 0 => up | 1 => down | 2 => door | 3 => clr | k + 4 => top.getLsbD k := by
  change BitVec.getLsbD (w := 4 + 1 + 1 + 1 + 1 + 8) (_ ++ _) (n + 8) = _
  match n with
  | 0 | 1 | 2 | 3 | k + 4 => simp [↓BitVec.getLsbD_append]

@[simp] theorem wordOfFields_up : (wordOfFields top up down door clr jump).getLsbD 8 = up :=
  wordOfFields_bit top up down door clr jump 0

@[simp] theorem wordOfFields_down : (wordOfFields top up down door clr jump).getLsbD 9 = down :=
  wordOfFields_bit top up down door clr jump 1

@[simp] theorem wordOfFields_door : (wordOfFields top up down door clr jump).getLsbD 10 = door :=
  wordOfFields_bit top up down door clr jump 2

@[simp] theorem wordOfFields_clr : (wordOfFields top up down door clr jump).getLsbD 11 = clr :=
  wordOfFields_bit top up down door clr jump 3

@[simp] theorem wordOfFields_top (len : Nat) :
    (wordOfFields top up down door clr jump).extractLsb' 12 len = top.extractLsb' 0 len := by
  change BitVec.extractLsb' (n := 4 + 1 + 1 + 1 + 1 + 8) 12 len (_ ++ _) = _
  simp (disch := decide) only [↓BitVec.extractLsb'_append_eq_of_le]

theorem decode_layoutA_wordOfFields : decode .layoutA (wordOfFields top up down door clr jump) =
    .uword jump up down door clr (top.extractLsb' 0 2) (top.getLsbD 2) := by
  simp only [decode, wordOfFields_jump, wordOfFields_up, wordOfFields_down, wordOfFields_door, wordOfFields_clr,
    wordOfFields_top, wordOfFields_bit top up down door clr jump 6]

theorem decode_layoutB_wordOfFields : decode .layoutB (wordOfFields top up down door clr jump) =
    .uwordB jump up down door clr (top.extractLsb' 0 3) (top.getLsbD 3) := by
  simp only [decode, wordOfFields_jump, wordOfFields_up, wordOfFields_down, wordOfFields_door, wordOfFields_clr,
    wordOfFields_top, wordOfFields_bit top up down door clr jump 7]

end Fields

/-- One bit of a word as the slice of width 1 that begins at it. -/
theorem ofBool_getLsbD_eq_extractLsb' (w : Word) (n : Nat) : BitVec.ofBool (w.getLsbD n) = w.extractLsb' n 1 := by
  have bit : ∀ b : BitVec 1, BitVec.ofBool (b == 1#1) = b := by decide
  rw [BitVec.getLsbD_eq_extractLsb', bit]

/-- Every word is its fields side by side: each slice ends where the one above it begins. -/
theorem wordOfFields_slices (w : Word) : wordOfFields (w.extractLsb' 12 4) (w.getLsbD 8) (w.getLsbD 9) (w.getLsbD 10)
    (w.getLsbD 11) (w.extractLsb' 0 8) = w := by
  simp only [wordOfFields, ofBool_getLsbD_eq_extractLsb']
  calc
    _ = w.extractLsb' 0 16 := by
      repeat rw [BitVec.extractLsb'_append_extractLsb'_eq_extractLsb' (by decide)]
    _ = w := BitVec.extractLsb'_eq_self

/-! ### DECODE and ENCODE lead back (R84) -/

theorem decode_encode (i : Instr) : decode i.layout (encode i) = i := by
  cases i with
  | uword jump up down door clr sel inv =>
    have hinv : (0#1 ++ BitVec.ofBool inv ++ sel).getLsbD 2 = inv := by simp [↓BitVec.getLsbD_append]
    rw [encode_uword_eq_wordOfFields, Instr.layout, decode_layoutA_wordOfFields, BitVec.extractLsb'_append_eq_right,
      hinv]
  | uwordB jump up down door clr sel inv =>
    have hinv : (BitVec.ofBool inv ++ sel).getLsbD 3 = inv := by simp [↓BitVec.getLsbD_append]
    rw [encode_uwordB_eq_wordOfFields, Instr.layout, decode_layoutB_wordOfFields, BitVec.extractLsb'_append_eq_right,
      hinv]

theorem encode_decode_layoutB (w : Word) : encode (decode .layoutB w) = w := by
  have top : BitVec.ofBool (w.getLsbD 15) ++ w.extractLsb' 12 3 = w.extractLsb' 12 4 := by
    rw [ofBool_getLsbD_eq_extractLsb', BitVec.extractLsb'_append_extractLsb'_eq_extractLsb' (by decide)]
  rw [decode, encode_uwordB_eq_wordOfFields, top, wordOfFields_slices]

/-- Under layout A the top bit ENCODE writes is 0, so a word with bit 15 clear is given back. -/
theorem encode_decode_layoutA_of_bit15 {w : Word} (h : w.getLsbD 15 = false) : encode (decode .layoutA w) = w := by
  have bit15 : w.extractLsb' 15 1 = 0#1 := by rw [← ofBool_getLsbD_eq_extractLsb', h]; rfl
  have top : 0#1 ++ BitVec.ofBool (w.getLsbD 14) ++ w.extractLsb' 12 2 = w.extractLsb' 12 4 := by
    rw [← bit15, ofBool_getLsbD_eq_extractLsb', BitVec.extractLsb'_append_extractLsb'_eq_extractLsb' (by decide),
      BitVec.extractLsb'_append_extractLsb'_eq_extractLsb' (by decide)]
  rw [decode, encode_uword_eq_wordOfFields, top, wordOfFields_slices]

theorem encode_decode_layoutA (w : Word) : encode (decode .layoutA w) = w &&& 0x7FFF := by
  have bit15 : (w &&& 0x7FFF).getLsbD 15 = false := by rw [BitVec.getLsbD_and]; exact Bool.and_false _
  rw [← decode_layoutA_masked, encode_decode_layoutA_of_bit15 bit15]

/-! ### Records of naturals -/

theorem fits_iff {l : SelLayout} {r : RawInstr} : r.fits l = true ↔ r.jump < 2 ^ 8 ∧ r.up < 2 ∧ r.down < 2 ∧
    r.door < 2 ∧ r.clr < 2 ∧ r.sel < 2 ^ selWidth l ∧ r.inv < 2 := by
  cases l <;> simp [RawInstr.fits, selWidth, and_assoc]

theorem exists_bool_toNat_eq {n : Nat} (h : n < 2) : ∃ b : Bool, b.toNat = n := by
  interval_cases n
  · exact ⟨false, rfl⟩
  · exact ⟨true, rfl⟩

theorem exists_bitVec_toNat_eq {k n : Nat} (h : n < 2 ^ k) : ∃ x : BitVec k, x.toNat = n :=
  ⟨BitVec.ofNat k n, Nat.mod_eq_of_lt h⟩

/-- A record of naturals that fits is a record of the layout, whose field types hold exactly the values that fit. -/
theorem exists_toRaw_eq {l : SelLayout} {r : RawInstr} (h : r.fits l = true) :
    ∃ i : Instr, i.layout = l ∧ i.toRaw = r := by
  obtain ⟨hjump, hup, hdown, hdoor, hclr, hsel, hinv⟩ := fits_iff.mp h
  obtain ⟨jump, hjump⟩ := exists_bitVec_toNat_eq hjump
  obtain ⟨up, hup⟩ := exists_bool_toNat_eq hup
  obtain ⟨down, hdown⟩ := exists_bool_toNat_eq hdown
  obtain ⟨door, hdoor⟩ := exists_bool_toNat_eq hdoor
  obtain ⟨clr, hclr⟩ := exists_bool_toNat_eq hclr
  obtain ⟨inv, hinv⟩ := exists_bool_toNat_eq hinv
  cases l with
  | layoutA =>
    obtain ⟨sel, hsel⟩ := exists_bitVec_toNat_eq (k := 2) hsel
    exact ⟨.uword jump up down door clr sel inv, rfl, by rw [Instr.toRaw, hjump, hup, hdown, hdoor, hclr, hsel, hinv]⟩
  | layoutB =>
    obtain ⟨sel, hsel⟩ := exists_bitVec_toNat_eq (k := 3) hsel
    exact ⟨.uwordB jump up down door clr sel inv, rfl, by rw [Instr.toRaw, hjump, hup, hdown, hdoor, hclr, hsel, hinv]⟩

/-! ### The check of R83 and the packing of R82 -/

/-- ENCODE of a word already packed, whose fields are still to be checked in order. -/
def checkedWord (checks : Bool) (fields : List (InstrField × Nat × Nat)) (w : Word) : Except (InstrField × Nat) Word :=
  match checks, firstTooWide fields with
  | true, some bad => .error bad
  | _, _ => .ok w

theorem encodeRaw_eq_checkedWord (cfg : Config) (r : RawInstr) : encodeRaw cfg r =
    checkedWord cfg.checks (r.fields cfg.selLayout) (packMasked cfg.selLayout r) := by
  unfold encodeRaw checkedWord
  rfl

theorem checkedWord_nil (checks : Bool) (w : Word) : checkedWord checks [] w = .ok w := by
  cases checks <;> rfl

/-- One field of the check: it is reported where it does not fit and `CHECKS` is on, else the next fields decide. -/
theorem checkedWord_cons (checks : Bool) (f : InstrField) (width value : Nat) (rest : List (InstrField × Nat × Nat))
    (w : Word) : checkedWord checks ((f, width, value) :: rest) w =
      if checks = true ∧ 2 ^ width ≤ value then .error (f, value) else checkedWord checks rest w := by
  cases checks with
  | false => rfl
  | true => by_cases h : 2 ^ width ≤ value <;> simp [checkedWord, firstTooWide, h]

/-- A field placed above all the bits written so far adds its value at its place. -/
theorem or_shiftLeft_eq_add {low n : Nat} (value : Nat) (h : low < 2 ^ n) :
    low ||| value <<< n = low + 2 ^ n * value := by
  rw [Nat.or_comm, ← Nat.shiftLeft_add_eq_or_of_lt h, Nat.shiftLeft_eq, Nat.add_comm, Nat.mul_comm]

/-- The packing of R82 as a sum: each field, reduced to its width, is placed above all the fields before it. -/
theorem packMasked_eq_sum (l : SelLayout) (r : RawInstr) : packMasked l r =
    BitVec.ofNat 16 (r.jump % 256 + 256 * (r.up % 2) + 512 * (r.down % 2) + 1024 * (r.door % 2) + 2048 * (r.clr % 2) +
      4096 * (r.sel % if l = .layoutA then 4 else 8) + (if l = .layoutA then 16384 else 32768) * (r.inv % 2)) := by
  cases l <;> simp (disch := omega) [packMasked, selWidth, or_shiftLeft_eq_add]

end Sys2Proof.Machine
end

section
/-! Proofs of the family 40_decoder.md: the theorems that settle its statements. -/

namespace Sys2Proof.Machine

/-- Settles O2, by `decode_encode`. -/
theorem decodeOfEncodeIsTheRecord : Obligations.DecodeOfEncodeIsTheRecord := by
  intro l i hl
  obtain rfl : i.layout = l := of_decide_eq_true hl
  exact decode_encode i

/-- Settles O4: a record that fits is a record of the layout, which is decoded from its word (`decode_encode`); a word
is given back from its record, up to bit 15 under layout A, and so DECODE loses no other bit. -/
theorem encodeAndDecodeRoundTrip : Obligations.EncodeAndDecodeRoundTrip := by
  refine ⟨fun cfg r hr => ?_, fun checks w => ⟨?_, ?_⟩, fun w w' hw hw' h => ?_, fun w w' h => ?_⟩
  · obtain ⟨i, hl, rfl⟩ := exists_toRaw_eq hr
    exact ⟨encode i, encodeRaw_toRaw (decide_eq_true hl), by rw [← hl, decode_encode]⟩
  · rw [encodeRaw_toRaw (decode_ofLayout .layoutA w), encode_decode_layoutA]
  · rw [encodeRaw_toRaw (decode_ofLayout .layoutB w), encode_decode_layoutB]
  · rw [← encode_decode_layoutA_of_bit15 hw, h, encode_decode_layoutA_of_bit15 hw']
  · rw [← encode_decode_layoutB w, h, encode_decode_layoutB]

/-- Settles O3: every field of a record has its width, so neither the check nor the masking shows. -/
theorem encodeByMaskingWritesTheBitPattern : Obligations.EncodeByMaskingWritesTheBitPattern :=
  fun _ _ h => encodeRaw_toRaw h

/-- Settles O5: the check goes through the seven fields one by one (`checkedWord_cons`), and where it reports none the
word is the sum of `packMasked_eq_sum`. -/
theorem encodeReportsTheFirstWideFieldOrPacks : Obligations.EncodeReportsTheFirstWideFieldOrPacks := by
  intro l checks r selSize invPlace
  rw [encodeRaw_eq_checkedWord, packMasked_eq_sum, RawInstr.fields]
  simp only [checkedWord_cons, checkedWord_nil, two_pow_selWidth, Nat.reducePow, selSize, invPlace]

end Sys2Proof.Machine
end

section
/-! Proofs of the family 41_condition_mux.md, the layer of facts: the condition each selector picks, and one equation of
EVAL as the host calls it for each case of R101. -/

namespace Sys2Proof.Machine

/-- EVAL at the number of a selector is the condition that selector picks, then the invert (R100, R102). -/
theorem evaluate_selectorNumber (inv : Bool) (inp : Inputs) (n : Selector) :
    evaluate inv (BitVec.ofNat 3 (selectorNumber n)) inp = xor (rawCondition inp n) inv := by
  cases n <;> rfl

section Eval
variable {s : State} {inv : Bool} {sel : Nat} {inp : Inputs} {q : List HostOp}

theorem performEval_ok {cfg : Config} {c : Bool}
    (h : evaluateWide cfg (Config.selDraw s.draws) inv sel inp = .ok c) :
    performEval cfg inv sel inp s = .next (s.evaluated sel c) := by
  simp [performEval, h]

theorem performEval_error {cfg : Config} {bad : Nat}
    (h : evaluateWide cfg (Config.selDraw s.draws) inv sel inp = .error bad) :
    performEval cfg inv sel inp s = .next (s.faulted (.selRange bad)) := by
  simp [performEval, h, raise]

theorem State.evaluated_of_oldest {op : HostOp} (sel : Nat) (c : Bool) (hq : s.hostOps = op :: q) :
    s.evaluated sel c =
      { s with hostOps := q, reply := .cond c, draws := if sel ≤ 7 then s.draws else s.draws + 1 } := by
  rw [State.evaluated, State.retire_of_oldest _ hq]

end Eval

/-- The STEP of a record raises no fault but its two entry faults, so never `F_SEL_RANGE` (R121, R150). -/
theorem stepInstr_not_selRange {i : Instr} {s t : State} (sel : Nat) (h : stepInstr i s = .next t) :
    t.fault ≠ some (.selRange sel) := by
  obtain ⟨hf, -, -, ⟨-, rfl⟩ | ⟨-, -, rfl⟩ | ⟨-, -, rfl⟩⟩ := stepInstr_next h
  · simp
  · simp
  · simp [hf]

end Sys2Proof.Machine
end

section
/-! Proofs of the family 41_condition_mux.md: the theorems that settle its statements. -/

namespace Sys2Proof.Machine

/-- Settles O21: EVAL by the three cases of `evaluateWide_cases`, STEP and TICK by `stepInstr_not_selRange`. -/
theorem evalOperationAtAWidePort : Obligations.EvalOperationAtAWidePort := by
  refine ⟨fun cfg s inv sel inp q hf hq => ?_, fun cfg s t sel hc h => ?_⟩
  · rw [stepWith_eval cfg hf hq]
    obtain ⟨hsel, he⟩ | ⟨hsel, hk, he⟩ | ⟨hsel, hk, he⟩ :=
      evaluateWide_cases cfg (Config.selDraw s.draws) inv sel inp
    · rw [performEval_ok he, State.evaluated_of_oldest _ _ hq, if_pos hsel, if_pos hsel]
    · rw [performEval_error he, State.faulted_of_oldest _ hq, if_neg (Nat.not_le.mpr hsel), if_pos hk]
    · rw [performEval_ok he, State.evaluated_of_oldest _ _ hq, if_neg (Nat.not_le.mpr hsel),
        if_neg (Nat.not_le.mpr hsel), if_neg (Bool.eq_false_iff.mp hk)]
  · obtain ⟨c, hc⟩ := Option.ne_none_iff_exists'.mp hc
    rw [stepWith_requested cfg (stepWith_next_not_faulted h) hc] at h
    exact stepInstr_not_selRange sel h

/-- Settles O20, by `evaluate_selectorNumber` for each row of the table; the two reserved selectors pick false, so the
invert is left. -/
theorem evaluateFollowsTheSelectorTable : Obligations.EvaluateFollowsTheSelectorTable := by
  intro inv inp
  have row := evaluate_selectorNumber inv inp
  exact ⟨row .any, row .below, row .same, row .above, row .closed, row .opened,
    evaluate_six_or_seven inv inp (.inl rfl), evaluate_six_or_seven inv inp (.inr rfl)⟩

end Sys2Proof.Machine
end

section
/-! Proofs of the family 42_sequencer.md, the layer of facts: the new `PC` of a STEP, the state a completed STEP or TICK
leaves, and what a transition does when the host requests a STEP or TICK. -/

namespace Sys2Proof.Machine

/-! ### The new `PC` (R123, R124) -/

theorem nextPc_not_taken_toNat (jump pc : Addr) : (nextPc false jump pc).toNat = (pc.toNat + 1) % 255 := by
  rw [nextPc_not_taken, BitVec.toNat_ofNat]
  simp only [memSize]
  omega

/-- Incrementing never reaches 255 (R127). -/
theorem nextPc_not_taken_ne (jump pc : Addr) : nextPc false jump pc ≠ 255 := by
  intro h
  have hpc := nextPc_not_taken_toNat jump pc
  rw [h] at hpc
  exact (Nat.mod_lt (pc.toNat + 1) (by decide : 0 < 255)).ne hpc.symm

/-- The jump of the fetched record is the low byte of the fetched word (R66). -/
theorem jumpOf_fetchInstr_toNat (cfg : Config) (s : State) :
    (jumpOf (fetchInstr cfg s)).toNat = (s.mem.readWord s.pc.toNat).toNat % 256 := by
  rw [fetchInstr, jumpOf_decode, BitVec.extractLsb'_toNat, Nat.shiftRight_zero]

/-! ### A completed STEP and a completed TICK -/

section Stepped
variable {s : State} {c : Bool} {q : List HostOp}

theorem State.stepped_of_step {b : Bool} (i : Instr) (hq : s.hostOps = .step b :: q) :
    s.stepped c i = { s with pc := nextPc c (jumpOf i) s.pc, out := i, hostOps := q, reply := .instr i } := by
  simp [State.stepped, State.retire, stepReply, hq]

theorem State.stepped_of_tick {inp : Inputs} (i : Instr) (hq : s.hostOps = .tick inp :: q) :
    s.stepped c i =
      { s with pc := nextPc c (jumpOf i) s.pc, out := i, hostOps := q, reply := .outputs (outputsOf i) } := by
  simp [State.stepped, State.retire, stepReply, hq]

end Stepped

/-! ### The transition of a requested STEP or TICK -/

section Requested
variable {cfg : Config} {s t : State} {c : Bool}

/-- A STEP or TICK at an address outside the memory (R121). -/
theorem stepWith_requested_pcRange (cfg : Config) (hf : s.fault = none) (hc : conditionActive s = some c)
    (hi : s.init = true) (hp : memSize ≤ s.pc.toNat) : stepWith cfg s = .next (s.faulted (.pcRange s.pc)) := by
  rw [stepWith_requested cfg hf hc, stepInstr_pcRange _ hf hc hi hp]

/-- Everything a requested STEP or TICK can do where it answers a next state. -/
theorem stepWith_requested_next (hc : conditionActive s = some c) (h : stepWith cfg s = .next t) :
    (s.init = false ∧ t = s.faulted (.uninit .step)) ∨
      (s.init = true ∧ memSize ≤ s.pc.toNat ∧ t = s.faulted (.pcRange s.pc)) ∨
      (s.init = true ∧ s.pc.toNat < memSize ∧ t = s.stepped c (fetchInstr cfg s)) := by
  rw [stepWith_requested cfg (stepWith_next_not_faulted h) hc] at h
  obtain ⟨-, c', hc', outcome⟩ := stepInstr_next h
  cases hc.symm.trans hc'
  exact outcome

/-- A requested STEP or TICK that raised no fault has completed. -/
theorem eq_stepped_of_not_faulted (hc : conditionActive s = some c) (h : stepWith cfg s = .next t)
    (ht : t.fault = none) : t = s.stepped c (fetchInstr cfg s) := by
  obtain ⟨-, rfl⟩ | ⟨-, -, rfl⟩ | ⟨-, -, ht⟩ := stepWith_requested_next hc h
  · cases ht
  · cases ht
  · exact ht

/-- The `PC` a requested STEP or TICK leaves: of the fetched word it depends on bits 7..0 alone (R126). -/
theorem stepWith_requested_pc (hc : conditionActive s = some c) (h : stepWith cfg s = .next t) :
    t.pc = if s.init = true ∧ s.pc.toNat < memSize
      then nextPc c ((s.mem.readWord s.pc.toNat).extractLsb' 0 8) s.pc else s.pc := by
  obtain ⟨hi, rfl⟩ | ⟨-, hp, rfl⟩ | ⟨hi, hp, rfl⟩ := stepWith_requested_next hc h
  · rw [if_neg fun entered => by simp [hi] at entered, State.faulted_pc]
  · rw [if_neg fun entered => Nat.not_lt.mpr hp entered.2, State.faulted_pc]
  · rw [if_pos ⟨hi, hp⟩, State.stepped_pc, fetchInstr, jumpOf_decode]

end Requested

end Sys2Proof.Machine
end

section
/-! Proofs of the family 42_sequencer.md: the theorems that settle its statements. -/

namespace Sys2Proof.Machine

/-- Settles O13, by the equation of a requested STEP for each outcome of its entry. -/
theorem stepOperation : Obligations.StepOperation := by
  intro cfg s c q hq
  have hc := conditionActive_step hq
  refine ⟨fun r => stepWith_stuck cfg, fun hf => ?_⟩
  cases hi : s.init with
  | false => rw [stepWith_requested_uninit cfg hf hc hi, State.faulted_of_oldest _ hq, if_pos rfl, hi]
  | true =>
    rw [if_neg (by decide)]
    rcases Nat.lt_or_ge s.pc.toNat 255 with hp | hp
    · rw [stepWith_completes hf hc hi hp, State.stepped_of_step _ hq, if_neg (Nat.not_le.mpr hp), hi]
      rfl
    · rw [stepWith_requested_pcRange cfg hf hc hi hp, State.faulted_of_oldest _ hq, if_pos hp, hi]

/-- Settles O14: the TICK and the STEP of its condition pass the entry alike, and what they leave differs in the answer
alone. -/
theorem tickOperation : Obligations.TickOperation := by
  intro cfg s inp q hq asStep
  have hc := conditionActive_tick hq
  have hc' : conditionActive asStep = some _ := conditionActive_step rfl
  refine ⟨fun r h => ?_, fun t h => ?_⟩
  · cases hf : s.fault with
    | some f =>
      rw [stepWith_stuck (s := asStep) cfg hf] at h
      rw [stepWith_stuck cfg hf, h]
    | none =>
      obtain ⟨t, ht⟩ := stepWith_answers (s := asStep) cfg hf
      rw [ht] at h
      cases h
  · have hf : s.fault = none := stepWith_next_not_faulted (s := asStep) h
    obtain ⟨hi, rfl⟩ | ⟨hi, hp, rfl⟩ | ⟨hi, hp, rfl⟩ := stepWith_requested_next hc' h
    · rw [stepWith_requested_uninit cfg hf hc hi, State.faulted_of_oldest _ hq]
      rfl
    · rw [stepWith_requested_pcRange cfg hf hc hi hp, State.faulted_of_oldest _ hq]
      rfl
    · rw [stepWith_completes hf hc hi hp, State.stepped_of_tick _ hq, State.stepped_fault, if_pos hf]
      rfl

/-- Settles O15: the STEP completes with any memory in place, and the increment does not read the word. -/
theorem notTakenAdvancesModulo255 : Obligations.NotTakenAdvancesModulo255 := by
  intro cfg s m hf hc hi hp
  refine ⟨_, stepWith_completes (s := s.withMem m) hf hc hi hp, ?_, fun h254 => ?_, ?_⟩
  · rw [State.stepped_pc, nextPc_not_taken_toNat, State.withMem_pc]
  · rw [State.stepped_pc, State.withMem_pc, h254]
    rfl
  · rw [State.stepped_pc]
    exact nextPc_not_taken_ne _ _

/-- Settles O16: the STEP completes, and its `PC` is the jump of the fetched record, unchecked. -/
theorem takenGoesToTheFetchedJump : Obligations.TakenGoesToTheFetchedJump :=
  fun cfg s hf hc hi hp => ⟨_, stepWith_completes hf hc hi hp, hf, jumpOf_fetchInstr_toNat cfg s⟩

/-- Settles O17: the taken branch leaves `PC = 255`, where the entry of the next STEP faults, and the increment never
reaches 255. -/
theorem branchTo255FaultsAtTheNextStep : Obligations.BranchTo255FaultsAtTheNextStep := by
  refine ⟨fun cfg s hf hc hi hp hjump => ?_, fun cfg s t hc h ht => ?_⟩
  · have hpc : (s.stepped true (fetchInstr cfg s)).pc = 255 :=
      BitVec.eq_of_toNat_eq ((jumpOf_fetchInstr_toNat cfg s).trans hjump)
    refine ⟨_, stepWith_completes hf hc hi hp, hf, hpc, rfl, fun c hc' => ?_⟩
    have hp' : memSize ≤ (s.stepped true (fetchInstr cfg s)).pc.toNat := by rw [hpc]; decide
    have hnext := stepWith_requested_pcRange (s := s.stepped _ _) cfg hf hc' hi hp'
    rwa [hpc] at hnext
  · rw [eq_stepped_of_not_faulted hc h ht, State.stepped_pc]
    exact nextPc_not_taken_ne _ _

/-- Settles O18, by `stepWith_requested_pc` for either memory. -/
theorem newPcIgnoresSelectorInvertAndFlags : Obligations.NewPcIgnoresSelectorInvertAndFlags := by
  intro cfg s t t' m hjump hc h h'
  obtain ⟨c, hc⟩ := Option.ne_none_iff_exists'.mp hc
  rw [stepWith_requested_pc hc h, stepWith_requested_pc (s := s.withMem m) hc h', hjump]
  rfl

/-- Settles O19: a completed STEP or TICK leaves the fetched record in `OUT`, and of the other writes only INIT's
touches `OUT`. -/
theorem outputPortsComeFromOut : Obligations.OutputPortsComeFromOut := by
  intro cfg s t h
  refine ⟨fun hc ht => ?_, fun hc hinit => ?_⟩
  · obtain ⟨c, hc⟩ := Option.ne_none_iff_exists'.mp hc
    rw [eq_stepped_of_not_faulted hc h ht, State.outputPorts, State.stepped_out, fetchInstr, outputsOf_decode]
  · obtain kept | ⟨q, hq, -⟩ | ⟨a, w, q, -, -, rfl⟩ | ⟨c, hc', -⟩ := stepWith_next_writes h
    · rw [State.outputPorts, kept.out, State.outputPorts]
    · exact absurd hq (hinit q)
    · rfl
    · cases hc.symm.trans hc'

/-- Settles O9: `exec` is the STEP of its record, and either fault of the entry writes `FAULT` only. -/
theorem uwordAndUwordBFaultAtTheEntry : Obligations.UwordAndUwordBFaultAtTheEntry := by
  intro i s c hf hc
  rw [exec_eq_stepInstr]
  refine ⟨stepInstr_uninit i hf hc, fun hi hpc => ?_⟩
  have hstep := stepInstr_pcRange i hf hc hi (by rw [hpc]; decide)
  rwa [hpc] at hstep

/-- Settles O12: the step is the STEP of the record fetched at `PC`, and so is `exec` of it. -/
theorem stepRunsTheDecodedInstruction : Obligations.StepRunsTheDecodedInstruction := by
  rintro s c _ hf hc - - rfl
  refine ⟨decode_ofLayout .layoutA _, ?_⟩
  rw [exec_eq_stepInstr]
  exact stepWith_requested Config.thisHardware hf hc

end Sys2Proof.Machine
end

section
/-! Proofs of the family 60_exceptions.md, the layer of facts: the table of the faults (R150) as a predicate on the state
a transition starts in, and the two directions that tie it to `stepWith`. -/

namespace Sys2Proof.Machine

/-- The rows of R150: what holds of the state in which the oldest operation raises `r`, with its info. R153's order is in
the rows: a range is looked at only past INIT. -/
def FaultRow (cfg : Config) (s : State) : FaultRecord → Prop
  | .uninit .step => conditionActive s ≠ none ∧ s.init = false
  | .uninit .load => (∃ a w q, s.hostOps = .load a w :: q) ∧ s.init = false
  | .pcRange p => conditionActive s ≠ none ∧ s.init = true ∧ s.pc = 255 ∧ p = 255
  | .loadRange a => (∃ w q, s.hostOps = .load a w :: q) ∧ s.init = true ∧ a = 255
  | .encWidth f v => cfg.checks = true ∧ ∃ i q, s.hostOps = .encode i :: q ∧ encodeRaw cfg i = .error (f, v)
  | .selRange n => cfg.checks = true ∧ 7 < n ∧ ∃ inv inp q, s.hostOps = .eval inv n inp :: q

/-- The only address outside the memory (R21, R40). -/
theorem memSize_le_toNat_iff {a : Addr} : memSize ≤ a.toNat ↔ a = 255 := by
  simp only [memSize]
  bv_omega

section FaultTable
variable {cfg : Config} {s t : State} {r : FaultRecord}

/-- A LOAD raises only what one of its two rows says. -/
theorem faultRow_of_performLoad {a : Addr} {w : Word} {q : List HostOp} (hf : s.fault = none)
    (hq : s.hostOps = .load a w :: q) (h : performLoad a w s = .next t) (ht : t.fault = some r) : FaultRow cfg s r := by
  obtain ⟨hi, rfl⟩ | ⟨hi, ha, rfl⟩ | ⟨-, -, rfl⟩ := performLoad_next h
  · cases ht
    exact ⟨⟨a, w, q, hq⟩, hi⟩
  · cases ht
    exact ⟨⟨w, q, hq⟩, hi, memSize_le_toNat_iff.mp ha⟩
  · cases hf.symm.trans ht

/-- A STEP or TICK raises only what one of its two rows says. -/
theorem faultRow_of_stepInstr {i : Instr} (h : stepInstr i s = .next t) (ht : t.fault = some r) : FaultRow cfg s r := by
  obtain ⟨hf, c, hc, outcome⟩ := stepInstr_next h
  have requested : conditionActive s ≠ none := Option.ne_none_iff_exists'.mpr ⟨c, hc⟩
  obtain ⟨hi, rfl⟩ | ⟨hi, hp, rfl⟩ | ⟨-, -, rfl⟩ := outcome
  · cases ht
    exact ⟨requested, hi⟩
  · cases ht
    have hpc := memSize_le_toNat_iff.mp hp
    exact ⟨requested, hi, hpc, hpc⟩
  · cases hf.symm.trans ht

/-- What a transition raises stands in the table under a row whose condition holds. -/
theorem faultRow_of_raised (h : stepWith cfg s = .next t) (ht : t.fault = some r) : FaultRow cfg s r := by
  obtain ⟨hf, ⟨-, rfl⟩ | ⟨q, -, rfl⟩ | ⟨a, w, q, hq, h⟩ | ⟨c, -, h⟩ | ⟨w, q, -, rfl⟩ | ⟨i, q, hq, h⟩ |
    ⟨inv, sel, inp, q, hq, h⟩⟩ := stepWith_next h
  · cases hf.symm.trans ht
  · cases hf.symm.trans ht
  · exact faultRow_of_performLoad hf hq h ht
  · exact faultRow_of_stepInstr h ht
  · cases hf.symm.trans ht
  · obtain ⟨w, -, rfl⟩ | ⟨f, v, he, rfl⟩ := performEncode_next h
    · cases hf.symm.trans ht
    · cases ht
      exact ⟨(encodeRaw_eq_error he).1, i, q, hq, he⟩
  · obtain ⟨c, -, rfl⟩ | ⟨hsel, hk, rfl⟩ := performEval_next h
    · cases hf.symm.trans ht
    · cases ht
      exact ⟨hk, hsel, inv, inp, q, hq⟩

/-- EVAL of a selector above 7 under `CHECKS = on` (R101). -/
theorem stepWith_eval_selRange {inv : Bool} {sel : Nat} {inp : Inputs} {q : List HostOp} (hf : s.fault = none)
    (hq : s.hostOps = .eval inv sel inp :: q) (hk : cfg.checks = true) (hsel : 7 < sel) :
    stepWith cfg s = .next (s.faulted (.selRange sel)) := by
  have he : evaluateWide cfg (Config.selDraw s.draws) inv sel inp = .error sel := by
    rw [evaluateWide, if_neg (Nat.not_le.mpr hsel), if_pos hk]
  rw [stepWith_eval cfg hf hq, performEval_error he]

/-- Where the condition of a row holds, the transition raises that row's fault. -/
theorem stepWith_of_faultRow (hf : s.fault = none) (row : FaultRow cfg s r) : stepWith cfg s = .next (s.faulted r) := by
  cases r with
  | uninit op =>
    cases op with
    | step =>
      obtain ⟨hc, hi⟩ := row
      obtain ⟨c, hc⟩ := Option.ne_none_iff_exists'.mp hc
      exact stepWith_requested_uninit cfg hf hc hi
    | load =>
      obtain ⟨⟨a, w, q, hq⟩, hi⟩ := row
      exact stepWith_load_uninit cfg hf hq hi
  | pcRange p =>
    obtain ⟨hc, hi, hpc, rfl⟩ := row
    obtain ⟨c, hc⟩ := Option.ne_none_iff_exists'.mp hc
    have hstep := stepWith_requested_pcRange cfg hf hc hi (memSize_le_toNat_iff.mpr hpc)
    rwa [hpc] at hstep
  | loadRange a =>
    obtain ⟨⟨w, q, hq⟩, hi, ha⟩ := row
    exact stepWith_load_range cfg hf hq hi (memSize_le_toNat_iff.mpr ha)
  | encWidth f v =>
    obtain ⟨-, i, q, hq, he⟩ := row
    rw [stepWith_encode cfg hf hq, performEncode_error s he]
  | selRange n =>
    obtain ⟨hk, hsel, inv, inp, q, hq⟩ := row
    exact stepWith_eval_selRange hf hq hk hsel

/-- The table is exact: a transition raises a fault where, and only where, that fault's row says so. -/
theorem stepWith_raises_iff (h : stepWith cfg s = .next t) (r : FaultRecord) :
    t.fault = some r ↔ FaultRow cfg s r := by
  refine ⟨faultRow_of_raised h, fun row => ?_⟩
  rw [stepWith_of_faultRow (stepWith_next_not_faulted h) row] at h
  cases h
  exact s.faulted_fault r

/-- A transition that raises a fault writes none of `PC`, `MEM`, `OUT` and `INIT` (R151). -/
theorem coreKept_of_raised (h : stepWith cfg s = .next t) (ht : t.fault = some r) : s.CoreKept t := by
  rw [stepWith_of_faultRow (stepWith_next_not_faulted h) (faultRow_of_raised h ht)] at h
  cases h
  exact s.coreKept_faulted r

end FaultTable

end Sys2Proof.Machine
end

section
/-! Proofs of the family 60_exceptions.md: the theorems that settle its statements. -/

namespace Sys2Proof.Machine

/-- Settles O30: the transition is one that raises a fault, which keeps the core's state, and a run from a faulted state is
stuck at its first step, whatever operations wait. -/
theorem faultsArePreciseAndTerminal : Obligations.FaultsArePreciseAndTerminal := by
  intro cfg s t r h ht
  obtain ⟨hpc, hmem, hout, hinit⟩ := coreKept_of_raised h ht
  refine ⟨hpc, hmem, hout, hinit, fun cfg' ops k => ?_⟩
  exact run_stuck (s := t.withQueue ops) cfg' k ht

/-- Settles O31: each clause is one row of the table, which `stepWith_raises_iff` says is exact. -/
theorem faultCausesAreTheFiveOfTheTable : Obligations.FaultCausesAreTheFiveOfTheTable := by
  refine ⟨fun op p a f v n => ⟨rfl, rfl, rfl, rfl, rfl⟩, fun cfg s t _ h => ?_⟩
  have row := stepWith_raises_iff h
  exact ⟨row (.uninit .step), row (.uninit .load), fun p => row (.pcRange p), fun a => row (.loadRange a),
    fun f v => row (.encWidth f v), fun n => row (.selRange n)⟩

end Sys2Proof.Machine
end

section
/-! Proofs of the family 70_reset_and_hazards.md, the layer of facts: a run cut in two, the word a fetch reads, the ticks
of a run against R175's recurrence, and the state with a word at its fetch address. -/

namespace Sys2Proof.Machine

/-! ### Runs -/

/-- A run whose first part completes goes on from the state that part leaves. -/
theorem run_add {cfg : Config} (k : Nat) {t : State} (j : Nat) :
    ∀ s, (coreWith cfg).run j s = .next t → (coreWith cfg).run (j + k) s = (coreWith cfg).run k t := by
  induction j with
  | zero =>
    intro s h
    cases (run_zero cfg s).symm.trans h
    rw [Nat.zero_add]
  | succ j ih =>
    intro s h
    cases hf : s.fault with
    | some r => cases (run_stuck cfg j hf).symm.trans h
    | none =>
      obtain ⟨s', hs'⟩ := stepWith_answers cfg hf
      rw [Nat.succ_add, run_succ _ hs']
      exact ih s' ((run_succ j hs').symm.trans h)

/-! ### What INIT leaves, as words -/

/-- `ZERO_INSTR` is the decode of the all-zero word (R12). -/
theorem Instr.zero_eq_decode (l : SelLayout) : Instr.zero l = decode l 0x0000 := by
  cases l <;> rfl

/-- The record INIT leaves in `OUT` selects `ANY`, not inverted (R176). -/
theorem evaluate_decode_zero (l : SelLayout) (inp : Inputs) :
    evaluate (invPort (decode l 0x0000)) (selPort (decode l 0x0000)) inp =
      (inp.callBelow || inp.callSame || inp.callAbove) := by
  cases l <;> exact Bool.xor_false _

/-- The fetch after a LOAD at `PC` reads the word loaded. -/
theorem fetchInstr_loaded_pc {s : State} (cfg : Config) (w : Word) (hm : s.mem.wf) :
    fetchInstr cfg (s.loaded s.pc w) = decode cfg.selLayout w := by
  rw [fetchInstr, State.loaded_mem, State.loaded_pc, Memory.readWord_writeWord_same _ _ hm]

/-! ### Ticks (R175) -/

theorem recurrenceRun_cons (cfg : Config) (m : Memory) (p : Addr × Instr) (inp : Inputs) (ins : List Inputs) :
    recurrenceRun cfg m p (inp :: ins) = recurrenceRun cfg m (recurrenceTick cfg m p inp) ins := rfl

/-- The recurrence reads of the memory its words only. -/
theorem recurrenceRun_eq_of_readWord_eq {m m' : Memory} (h : ∀ a, m.readWord a = m'.readWord a) (cfg : Config) :
    recurrenceRun cfg m = recurrenceRun cfg m' := by
  have htick : recurrenceTick cfg m = recurrenceTick cfg m' := by
    funext p inp
    simp only [recurrenceTick, h]
  funext p ins
  rw [recurrenceRun, htick, recurrenceRun]

/-- The first tick after INIT: its condition is "any call pending", its jump and record are those of word 0 (R176). -/
theorem recurrenceTick_from_zero (cfg : Config) (m : Memory) (inp : Inputs) :
    recurrenceTick cfg m (0, decode cfg.selLayout 0x0000) inp =
      (if inp.callBelow || inp.callSame || inp.callAbove then (m.readWord 0).extractLsb' 0 8 else 1,
        decode cfg.selLayout (m.readWord 0)) := by
  rw [← evaluate_decode_zero cfg.selLayout, ← jumpOf_decode cfg.selLayout]
  rfl

/-- The state a completed TICK leaves (R128). -/
def State.ticked (s : State) (cfg : Config) (inp : Inputs) : State :=
  s.stepped (evaluate (invPort s.out) (selPort s.out) inp) (fetchInstr cfg s)

@[simp] theorem State.ticked_mem (s : State) (cfg : Config) (inp : Inputs) : (s.ticked cfg inp).mem = s.mem := rfl
@[simp] theorem State.ticked_hostOps (s : State) (cfg : Config) (inp : Inputs) :
    (s.ticked cfg inp).hostOps = s.hostOps.tail := rfl

/-- A completed TICK is one tick of the recurrence. -/
theorem State.ticked_pc_out (s : State) (cfg : Config) (inp : Inputs) :
    ((s.ticked cfg inp).pc, (s.ticked cfg inp).out) = recurrenceTick cfg s.mem (s.pc, s.out) inp := rfl

section Ticks
variable {cfg : Config} {s : State} {inp : Inputs} {q : List HostOp}

theorem stepWith_tick_completes (cfg : Config) (hf : s.fault = none) (hi : s.init = true) (hp : s.pc.toNat < memSize)
    (hq : s.hostOps = .tick inp :: q) : stepWith cfg s = .next (s.ticked cfg inp) :=
  stepWith_completes hf (conditionActive_tick hq) hi hp

/-- A run of TICKs none of which starts at `PC = 255` completes and follows the recurrence. -/
theorem run_ticks_follows_recurrence (cfg : Config) (q : List HostOp) (ins : List Inputs) :
    ∀ s : State, s.fault = none → s.init = true →
      (∀ k < ins.length, (recurrenceRun cfg s.mem (s.pc, s.out) (ins.take k)).1.toNat < 255) →
      s.hostOps = ins.map (fun inp => .tick inp) ++ q →
      ∃ t, (coreWith cfg).run ins.length s = .next t ∧ t.fault = none ∧ t.mem = s.mem ∧ t.hostOps = q ∧
        (t.pc, t.out) = recurrenceRun cfg s.mem (s.pc, s.out) ins := by
  induction ins with
  | nil => exact fun s hf _ _ hq => ⟨s, run_zero cfg s, hf, rfl, hq, rfl⟩
  | cons inp ins ih =>
    intro s hf hi hpc hq
    have hp : s.pc.toNat < memSize := hpc 0 (Nat.succ_pos _)
    have hpc' : ∀ k < ins.length, (recurrenceRun cfg (s.ticked cfg inp).mem
        ((s.ticked cfg inp).pc, (s.ticked cfg inp).out) (ins.take k)).1.toNat < 255 := fun k hk => by
      rw [State.ticked_pc_out, State.ticked_mem, ← recurrenceRun_cons]
      exact hpc (k + 1) (Nat.succ_lt_succ hk)
    obtain ⟨t, hrun, ht⟩ := ih (s.ticked cfg inp) hf hi hpc' (by simp [hq])
    rw [State.ticked_pc_out, State.ticked_mem, ← recurrenceRun_cons] at ht
    refine ⟨t, ?_, ht⟩
    rw [List.length_cons, run_succ _ (stepWith_tick_completes cfg hf hi hp hq), hrun]

/-- The run from its boot: INIT and the LOADs leave `PC = 0`, `OUT = ZERO_INSTR` and the words last loaded, where the
ticks begin. -/
theorem run_boot_follows_recurrence {loads : List (Addr × Word)} {ins : List Inputs} {m : Memory} (hf : s.fault = none)
    (hrange : ∀ p ∈ loads, p.1.toNat < 255) (hm : ∀ a, m.readWord a = (lastLoaded loads a).getD 0x0000)
    (hpc : ∀ k < ins.length, (recurrenceRun cfg m (0, decode cfg.selLayout 0x0000) (ins.take k)).1.toNat < 255)
    (hq : s.hostOps = .init :: (loads.map (fun p => .load p.1 p.2) ++ (ins.map (fun inp => .tick inp) ++ q))) :
    ∃ t, (coreWith cfg).run (loads.length + ins.length + 1) s = .next t ∧ t.fault = none ∧ t.hostOps = q ∧
      (t.pc, t.out) = recurrenceRun cfg m (0, decode cfg.selLayout 0x0000) ins := by
  obtain ⟨b, hloads, hbq, hbpc, hbout, hbi, hbf, hbm⟩ := loadsLeaveTheLastWordWritten cfg loads (s.initialised cfg)
    (ins.map (fun inp => .tick inp) ++ q) Memory.wf_cleared hf rfl hrange (by rw [State.initialised_hostOps, hq]; rfl)
  have hwords : ∀ a, m.readWord a = b.mem.readWord a := fun a => by
    rw [hm, hbm, State.initialised_mem, Memory.readWord_cleared]
  have hstart : (b.pc, b.out) = (0, decode cfg.selLayout 0x0000) := by
    rw [hbpc, hbout, State.initialised_pc, State.initialised_out, Instr.zero_eq_decode]
  rw [recurrenceRun_eq_of_readWord_eq hwords, ← hstart] at hpc ⊢
  obtain ⟨t, hticks, htf, -, htq, ht⟩ := run_ticks_follows_recurrence cfg q ins b hbf hbi hpc hbq
  refine ⟨t, ?_, htf, htq, ht⟩
  rw [run_succ _ (stepWith_init hf hq), run_add _ _ _ hloads, hticks]

end Ticks

/-! ### The state with a word at its fetch address -/

/-- This hardware reads every row of at most 16 bits, and no longer one. -/
theorem decodeTableWord_eq_some {nbits w : Nat} {i : Instr} (h : decodeTableWord nbits w = some i) :
    decode .layoutA (BitVec.ofNat 16 (w % 2 ^ nbits)) = i := by
  unfold decodeTableWord at h
  split at h
  · exact Option.some.inj h
  · cases h

theorem fetchAddr_lt (s : State) : (fetchAddr s).toNat < memSize := by
  unfold fetchAddr
  split
  next hp => exact hp
  next => decide

/-- With a word put at its fetch address, a state always has a STEP or TICK requested. -/
theorem exists_conditionActive_withWordAtFetch (s : State) (w : Word) :
    ∃ c, conditionActive (s.withWordAtFetch w) = some c := by
  cases hc : conditionActive s with
  | some c =>
    have hq : (s.withWordAtFetch w).hostOps = s.hostOps := by simp only [State.withWordAtFetch, hc]
    exact ⟨c, by rw [← hc, conditionActive, hq]; rfl⟩
  | none =>
    have hq : (s.withWordAtFetch w).hostOps = .tick noInputs :: s.hostOps := by simp only [State.withWordAtFetch, hc]
    exact ⟨_, conditionActive_tick hq⟩

theorem fetchInstr_withWordAtFetch {s : State} (cfg : Config) (w : Word) (hm : s.mem.wf) :
    fetchInstr cfg (s.withWordAtFetch w) = decode cfg.selLayout w := by
  rw [fetchInstr, State.withWordAtFetch_mem, State.withWordAtFetch_pc, Memory.readWord_writeWord_same _ _ hm]

end Sys2Proof.Machine
end

section
/-! Proofs of the family 70_reset_and_hazards.md: the theorems that settle its statements. -/

namespace Sys2Proof.Machine

/-- Settles O42: the ticks by induction on the input samples, and the boot by the LOADs' own statement (O26). -/
theorem tickRunsFollowTheRecurrence : Obligations.TickRunsFollowTheRecurrence :=
  ⟨fun cfg ins s q => run_ticks_follows_recurrence cfg q ins s,
    fun _ _ _ _ _ _ => run_boot_follows_recurrence⟩

/-- Settles O27: the LOAD completes and writes neither `PC` nor `OUT`, so the TICK after it fetches `w` under the old
condition. -/
theorem loadIsSeenByTheNextFetch : Obligations.LoadIsSeenByTheNextFetch := by
  intro cfg s w inp q hm hf hi hp hq
  have hload := stepWith_load_completes cfg hf hq hi hp
  have htick := stepWith_tick_completes (s := s.loaded s.pc w) (inp := inp) (q := q) cfg hf hi hp (by simp [hq])
  have hfetch := fetchInstr_loaded_pc cfg w hm
  refine ⟨(s.loaded s.pc w).ticked cfg inp, ?_, hf, by simp [hq], hfetch, ?_⟩
  · rw [run_succ _ hload, run_succ _ htick, run_zero]
  · rw [State.ticked, State.stepped_pc, hfetch]
    rfl

/-- Settles O29: the boot of one LOAD and one TICK is one tick of the recurrence from `ZERO_INSTR`, whose condition is
"any call pending". -/
theorem firstTickBranchesOnAnyCall : Obligations.FirstTickBranchesOnAnyCall := by
  intro cfg s w inp q hf hq
  have hread : ∀ a, (Memory.cleared.writeWord 0 w).readWord a = (lastLoaded [(0, w)] a).getD 0x0000 := fun a => by
    have hlast := lastLoaded_cons_getD 0 w [] a Memory.wf_cleared
    rw [Memory.readWord_cleared] at hlast
    exact hlast.symm
  obtain ⟨t, hrun, htf, -, ht⟩ := run_boot_follows_recurrence (cfg := cfg) (loads := [(0, w)]) (ins := [inp]) hf
    (by simp) hread (fun k hk => by simp [Nat.lt_one_iff.mp hk, recurrenceRun]) hq
  rw [recurrenceRun_cons, recurrenceTick_from_zero, Memory.readWord_writeWord_same 0 w Memory.wf_cleared] at ht
  obtain ⟨hpc, hout⟩ := Prod.mk.inj ht
  exact ⟨t, hrun, htf, hout, hpc⟩

/-- Settles O43: the next transition is the STEP of the record fetched, which is the one read, and its entry lets it
through. -/
theorem fetchWordIsTheNextInstruction : Obligations.FetchWordIsTheNextInstruction := by
  intro s nbits w i hm hw
  obtain ⟨c, hc⟩ := exists_conditionActive_withWordAtFetch s (BitVec.ofNat 16 (w % 2 ^ nbits))
  have hfetch : fetchInstr Config.thisHardware (s.withFetchWord nbits w) = i :=
    (fetchInstr_withWordAtFetch _ _ hm).trans (decodeTableWord_eq_some hw)
  have hstep := stepWith_requested (s := s.withFetchWord nbits w) Config.thisHardware rfl hc
  rw [hfetch, ← exec_eq_stepInstr] at hstep
  refine ⟨hstep, (s.withFetchWord nbits w).stepped c i, ?_, rfl, rfl⟩
  rw [exec_eq_stepInstr]
  exact stepInstr_completes i rfl hc rfl (fetchAddr_lt s)

/-- Settles O24, by the equation of INIT. -/
theorem initOperation : Obligations.InitOperation := by
  intro cfg s q hq
  refine ⟨fun r => stepWith_stuck cfg, fun hf => ?_⟩
  refine ⟨_, stepWith_init hf hq, rfl, Memory.readWord_cleared, Instr.zero_eq_decode _, rfl, hf, ?_⟩
  rw [State.initialised_hostOps, hq, List.tail_cons]

/-- Settles O39: a build's reset state is what INIT leaves of its power-on state, and INIT establishes the invariant. -/
theorem stateInvHoldsAfterReset : Obligations.StateInvHoldsAfterReset := by
  have hreset : ∀ cfg : Config, (State.resetWith cfg).Inv cfg := fun cfg =>
    State.initialised_powerOn cfg ▸ State.inv_initialised _ cfg
  exact ⟨hreset Config.thisHardware, hreset⟩

end Sys2Proof.Machine
end
